-- ==== Sys2Proof/Word.lean ====
section
/-! DEFINITION. The widths of the LS-8 core: 8-bit bytes and addresses, and the index of a register
(spec/00_scope.md R4, R5; spec/10_state.md R13). -/

namespace Sys2Proof

/-- An unsigned 8-bit value: the content of a register or of a memory cell, an opcode byte, an operand
byte (`00_scope.md` R5). The `BitVec` operations on it wrap modulo 2^8, as R17 asks. -/
abbrev Byte := BitVec 8

/-- An address, and the value of the program counter: 8 bits, all arithmetic modulo 256
(`20_memory.md` R49; ADDR_WIDTH of `00_scope.md` R4). -/
abbrev Addr := BitVec 8

/-- The index of a register, 0..7 (`10_state.md` R13: "indexed 0..7"). -/
abbrev RegIdx := Fin 8

end Sys2Proof
end

