-- ==== Sys2Proof/Syntax.lean ====
section
/-! DEFINITION. The 32 instructions of the LS-8 core (spec/00_scope.md R1, spec/30_encoding.md R58, R62), one
constructor per row of spec/opcode_table.json, in the table's order. -/

namespace Sys2Proof

/-- A register operand byte, taken apart by the decoder: bits 2:0 are the register index, bits 7:3 are
ignored by the hardware (`30_encoding.md` R59). The ignored bits are kept so that an instruction has
every bit of its encoding; no meaning reads them. -/
structure RegOperand where
  spare : BitVec 5
  index : RegIdx
  deriving DecidableEq, Repr

/-- An instruction, with its operands in the order of its operand bytes (`30_encoding.md` R57, R58). -/
inductive Instr where
  /-- NOP, format Z (`42_dispatch.md` R110). -/
  | nop
  /-- HLT, format Z (`42_dispatch.md` R109). -/
  | hlt
  /-- RET, format Z (`46_control_flow.md` R158). -/
  | ret
  /-- PUSH Ra, format R (`45_stack.md` R146). -/
  | push (a : RegOperand)
  /-- POP Ra, format R (`45_stack.md` R148). -/
  | pop (a : RegOperand)
  /-- PRN Ra, format R (`44_output.md` R136). -/
  | prn (a : RegOperand)
  /-- PRA Ra, format R (`44_output.md` R137). -/
  | pra (a : RegOperand)
  /-- CALL Ra, format R (`46_control_flow.md` R156). -/
  | call (a : RegOperand)
  /-- JMP Ra, format R (`46_control_flow.md` R159). -/
  | jmp (a : RegOperand)
  /-- JEQ Ra, format R (`46_control_flow.md` R160). -/
  | jeq (a : RegOperand)
  /-- JNE Ra, format R (`46_control_flow.md` R161). -/
  | jne (a : RegOperand)
  /-- JGT Ra, format R (`46_control_flow.md` R162). -/
  | jgt (a : RegOperand)
  /-- JLT Ra, format R (`46_control_flow.md` R163). -/
  | jlt (a : RegOperand)
  /-- JLE Ra, format R (`46_control_flow.md` R165). -/
  | jle (a : RegOperand)
  /-- JGE Ra, format R (`46_control_flow.md` R164). -/
  | jge (a : RegOperand)
  /-- INC Ra, format R (`40_alu_arithmetic.md` R83). -/
  | inc (a : RegOperand)
  /-- DEC Ra, format R (`40_alu_arithmetic.md` R84). -/
  | dec (a : RegOperand)
  /-- NOT Ra, format R (`41_alu_bitwise_compare.md` R94). -/
  | not (a : RegOperand)
  /-- LDI Ra, imm, format RI (`43_data_movement.md` R125). -/
  | ldi (a : RegOperand) (imm : Byte)
  /-- LD Ra, Rb, format RR: the destination first, the address register second (`43_data_movement.md` R126). -/
  | ld (a b : RegOperand)
  /-- ST Ra, Rb, format RR: the address register first, the value register second (`43_data_movement.md` R127). -/
  | st (a b : RegOperand)
  /-- ADD Ra, Rb, format RR (`40_alu_arithmetic.md` R78). -/
  | add (a b : RegOperand)
  /-- SUB Ra, Rb, format RR (`40_alu_arithmetic.md` R79). -/
  | sub (a b : RegOperand)
  /-- MUL Ra, Rb, format RR (`40_alu_arithmetic.md` R80). -/
  | mul (a b : RegOperand)
  /-- DIV Ra, Rb, format RR (`40_alu_arithmetic.md` R81). -/
  | div (a b : RegOperand)
  /-- MOD Ra, Rb, format RR (`40_alu_arithmetic.md` R82). -/
  | mod (a b : RegOperand)
  /-- CMP Ra, Rb, format RR (`41_alu_bitwise_compare.md` R97). -/
  | cmp (a b : RegOperand)
  /-- AND Ra, Rb, format RR (`41_alu_bitwise_compare.md` R91). -/
  | and (a b : RegOperand)
  /-- OR Ra, Rb, format RR (`41_alu_bitwise_compare.md` R92). -/
  | or (a b : RegOperand)
  /-- XOR Ra, Rb, format RR (`41_alu_bitwise_compare.md` R93). -/
  | xor (a b : RegOperand)
  /-- SHL Ra, Rb, format RR (`41_alu_bitwise_compare.md` R95). -/
  | shl (a b : RegOperand)
  /-- SHR Ra, Rb, format RR (`41_alu_bitwise_compare.md` R96). -/
  | shr (a b : RegOperand)
  deriving DecidableEq, Repr

/-- The 32 opcodes without their operands: the keys of the opcode table (`30_encoding.md` R62). -/
inductive Op where
  | nop | hlt | ret
  | push | pop | prn | pra | call | jmp | jeq | jne | jgt | jlt | jle | jge | inc | dec | not
  | ldi | ld | st | add | sub | mul | div | mod | cmp | and | or | xor | shl | shr
  deriving DecidableEq, Repr

/-- The opcode of an instruction. -/
def Instr.op : Instr → Op
  | .nop => .nop
  | .hlt => .hlt
  | .ret => .ret
  | .push _ => .push
  | .pop _ => .pop
  | .prn _ => .prn
  | .pra _ => .pra
  | .call _ => .call
  | .jmp _ => .jmp
  | .jeq _ => .jeq
  | .jne _ => .jne
  | .jgt _ => .jgt
  | .jlt _ => .jlt
  | .jle _ => .jle
  | .jge _ => .jge
  | .inc _ => .inc
  | .dec _ => .dec
  | .not _ => .not
  | .ldi _ _ => .ldi
  | .ld _ _ => .ld
  | .st _ _ => .st
  | .add _ _ => .add
  | .sub _ _ => .sub
  | .mul _ _ => .mul
  | .div _ _ => .div
  | .mod _ _ => .mod
  | .cmp _ _ => .cmp
  | .and _ _ => .and
  | .or _ _ => .or
  | .xor _ _ => .xor
  | .shl _ _ => .shl
  | .shr _ _ => .shr

end Sys2Proof
end

