-- ==== Sys2Proof/WellFormed.lean ====
section
/-! DEFINITION. The one check an instruction can fail: its register operand bytes are the canonical ones that
an assembler writes (spec/30_encoding.md R70). THE HARDWARE DOES NOT MAKE THIS CHECK: it ignores bits 7:3 of a
register operand byte (R59), and `decode`, `exec` and `step` accept and run every operand byte. It is the
boundary that R59 allows "a model that wants to err toward refusing", for claims that want it. -/

namespace Sys2Proof

/-- The operand byte is `0b00000rrr` (`30_encoding.md` R70): its ignored bits 7:3 are all 0. -/
def RegOperand.canonical (r : RegOperand) : Bool :=
  r.spare == 0#5

/-- The canonical operand of register `i`. -/
def RegOperand.reg (i : RegIdx) : RegOperand :=
  { spare := 0#5, index := i }

/-- Every register operand byte of the instruction is canonical. An immediate has no illegal value
(`30_encoding.md` R67). -/
def Instr.wellFormed : Instr → Bool
  | .nop => true
  | .hlt => true
  | .ret => true
  | .push a => a.canonical
  | .pop a => a.canonical
  | .prn a => a.canonical
  | .pra a => a.canonical
  | .call a => a.canonical
  | .jmp a => a.canonical
  | .jeq a => a.canonical
  | .jne a => a.canonical
  | .jgt a => a.canonical
  | .jlt a => a.canonical
  | .jle a => a.canonical
  | .jge a => a.canonical
  | .inc a => a.canonical
  | .dec a => a.canonical
  | .not a => a.canonical
  | .ldi a _ => a.canonical
  | .ld a b => a.canonical && b.canonical
  | .st a b => a.canonical && b.canonical
  | .add a b => a.canonical && b.canonical
  | .sub a b => a.canonical && b.canonical
  | .mul a b => a.canonical && b.canonical
  | .div a b => a.canonical && b.canonical
  | .mod a b => a.canonical && b.canonical
  | .cmp a b => a.canonical && b.canonical
  | .and a b => a.canonical && b.canonical
  | .or a b => a.canonical && b.canonical
  | .xor a b => a.canonical && b.canonical
  | .shl a b => a.canonical && b.canonical
  | .shr a b => a.canonical && b.canonical

end Sys2Proof
end

