-- ==== Sys2Proof/Decode.lean ====
section
/-! DEFINITION. The opcode map (spec/30_encoding.md R62), the decoder and the encoder. The decoder is total:
every opcode byte is one of the 32 instructions or is rejected by name (R65). -/

namespace Sys2Proof

/-! ### The opcode byte and its fields -/

/-- OPCODE_MAP, the opcode byte of each instruction (`30_encoding.md` R62). The spec supplies the values from
general knowledge and says so (`93_implementation_defined.md` GK1); this is the one place that holds them. -/
def Op.byte : Op → Byte
  | .nop => 0x00#8
  | .hlt => 0x01#8
  | .ret => 0x11#8
  | .push => 0x45#8
  | .pop => 0x46#8
  | .prn => 0x47#8
  | .pra => 0x48#8
  | .call => 0x50#8
  | .jmp => 0x54#8
  | .jeq => 0x55#8
  | .jne => 0x56#8
  | .jgt => 0x57#8
  | .jlt => 0x58#8
  | .jle => 0x59#8
  | .jge => 0x5A#8
  | .inc => 0x65#8
  | .dec => 0x66#8
  | .not => 0x69#8
  | .ldi => 0x82#8
  | .ld => 0x83#8
  | .st => 0x84#8
  | .add => 0xA0#8
  | .sub => 0xA1#8
  | .mul => 0xA2#8
  | .div => 0xA3#8
  | .mod => 0xA4#8
  | .cmp => 0xA7#8
  | .and => 0xA8#8
  | .or => 0xAA#8
  | .xor => 0xAB#8
  | .shl => 0xAC#8
  | .shr => 0xAD#8

/-- Every opcode, in the table's order (`30_encoding.md` R62). -/
def Op.all : List Op :=
  [.nop, .hlt, .ret] ++
  [.push, .pop, .prn, .pra, .call, .jmp, .jeq, .jne, .jgt, .jlt, .jle, .jge, .inc, .dec, .not] ++
  [.ldi, .ld, .st, .add, .sub, .mul, .div, .mod, .cmp, .and, .or, .xor, .shl, .shr]

/-- The opcode a byte stands for, if it is one of the 32 (`42_dispatch.md` R108). -/
def Op.ofByte? (ir : Byte) : Option Op :=
  Op.all.find? fun o => o.byte == ir

/-- N, bits 7:6 of the opcode byte: how many operand bytes follow (`30_encoding.md` R55, R56). -/
def operandCount (ir : Byte) : Nat :=
  (ir.extractLsb' 6 2).toNat

/-- C, bit 4 of the opcode byte: the handler writes the pc itself (`30_encoding.md` R56). -/
def pcControl (ir : Byte) : Bool :=
  ir.getLsbD 4

/-- U, bit 5 of the opcode byte: one of the 14 ALU instructions (`30_encoding.md` R56, from general
knowledge; nothing of the machine reads it). -/
def aluBit (ir : Byte) : Bool :=
  ir.getLsbD 5

/-! ### Operand bytes -/

/-- A register operand byte: the index is its low three bits (`30_encoding.md` R59). -/
def RegOperand.ofByte (A : Byte) : RegOperand :=
  { spare := A.extractLsb' 3 5, index := (A.extractLsb' 0 3).toFin }

/-- The byte of a register operand, ignored bits first (`30_encoding.md` R57). -/
def RegOperand.toByte (r : RegOperand) : Byte :=
  (r.spare ++ BitVec.ofFin (w := 3) r.index : BitVec (5 + 3))

/-! ### The decoder -/

/-- Why a byte is no opcode. -/
inductive DecodeError where
  /-- Bits 7:6 of the byte are 3: no instruction has three operand bytes (`30_encoding.md` R66). -/
  | threeOperandBytes (ir : Byte)
  /-- Any other byte that the opcode map does not hold (`30_encoding.md` R65, R67). -/
  | unassignedOpcode (ir : Byte)
  deriving DecidableEq, Repr

/-- What the decoder answers for a byte: an instruction, or the name of what is wrong. -/
inductive Decoded where
  | instr (i : Instr)
  | illegal (why : DecodeError)
  deriving DecidableEq, Repr

/-- The instruction of an opcode and the two operand bytes fetched with it; an operand byte that the
format does not have is ignored (`30_encoding.md` R57, R58, R61). -/
def Op.instr (A B : Byte) : Op → Instr
  | .nop => .nop
  | .hlt => .hlt
  | .ret => .ret
  | .push => .push (.ofByte A)
  | .pop => .pop (.ofByte A)
  | .prn => .prn (.ofByte A)
  | .pra => .pra (.ofByte A)
  | .call => .call (.ofByte A)
  | .jmp => .jmp (.ofByte A)
  | .jeq => .jeq (.ofByte A)
  | .jne => .jne (.ofByte A)
  | .jgt => .jgt (.ofByte A)
  | .jlt => .jlt (.ofByte A)
  | .jle => .jle (.ofByte A)
  | .jge => .jge (.ofByte A)
  | .inc => .inc (.ofByte A)
  | .dec => .dec (.ofByte A)
  | .not => .not (.ofByte A)
  | .ldi => .ldi (.ofByte A) B
  | .ld => .ld (.ofByte A) (.ofByte B)
  | .st => .st (.ofByte A) (.ofByte B)
  | .add => .add (.ofByte A) (.ofByte B)
  | .sub => .sub (.ofByte A) (.ofByte B)
  | .mul => .mul (.ofByte A) (.ofByte B)
  | .div => .div (.ofByte A) (.ofByte B)
  | .mod => .mod (.ofByte A) (.ofByte B)
  | .cmp => .cmp (.ofByte A) (.ofByte B)
  | .and => .and (.ofByte A) (.ofByte B)
  | .or => .or (.ofByte A) (.ofByte B)
  | .xor => .xor (.ofByte A) (.ofByte B)
  | .shl => .shl (.ofByte A) (.ofByte B)
  | .shr => .shr (.ofByte A) (.ofByte B)

/-- The decoder, on the three bytes that every step fetches (`42_dispatch.md` R105): total, and a byte that
is no opcode is rejected by name (`30_encoding.md` R65, R66, R67). -/
def decode (ir A B : Byte) : Decoded :=
  match Op.ofByte? ir with
  | some o => .instr (o.instr A B)
  | none => .illegal (if operandCount ir = 3 then .threeOperandBytes ir else .unassignedOpcode ir)

/-- Byte `k` of an instruction whose bits are numbered as spec/opcode_table.json numbers them: byte 0 in
bits 7..0, byte 1 in bits 15..8, byte 2 in bits 23..16; every bit from `nbits` on is 0. -/
def tableByte (nbits w k : Nat) : Byte :=
  BitVec.ofNat 8 ((w % 2 ^ nbits) / 2 ^ (8 * k))

/-- The instruction the decoder reads from a word of spec/opcode_table.json. -/
def decodeTableWord (nbits w : Nat) : Option Instr :=
  match decode (tableByte nbits w 0) (tableByte nbits w 1) (tableByte nbits w 2) with
  | .instr i => some i
  | .illegal _ => none

/-! ### The encoder -/

/-- The operand bytes of an instruction, at increasing addresses (`30_encoding.md` R57; `20_memory.md` R38). -/
def Instr.operandBytes : Instr → List Byte
  | .nop => []
  | .hlt => []
  | .ret => []
  | .push a => [a.toByte]
  | .pop a => [a.toByte]
  | .prn a => [a.toByte]
  | .pra a => [a.toByte]
  | .call a => [a.toByte]
  | .jmp a => [a.toByte]
  | .jeq a => [a.toByte]
  | .jne a => [a.toByte]
  | .jgt a => [a.toByte]
  | .jlt a => [a.toByte]
  | .jle a => [a.toByte]
  | .jge a => [a.toByte]
  | .inc a => [a.toByte]
  | .dec a => [a.toByte]
  | .not a => [a.toByte]
  | .ldi a imm => [a.toByte, imm]
  | .ld a b => [a.toByte, b.toByte]
  | .st a b => [a.toByte, b.toByte]
  | .add a b => [a.toByte, b.toByte]
  | .sub a b => [a.toByte, b.toByte]
  | .mul a b => [a.toByte, b.toByte]
  | .div a b => [a.toByte, b.toByte]
  | .mod a b => [a.toByte, b.toByte]
  | .cmp a b => [a.toByte, b.toByte]
  | .and a b => [a.toByte, b.toByte]
  | .or a b => [a.toByte, b.toByte]
  | .xor a b => [a.toByte, b.toByte]
  | .shl a b => [a.toByte, b.toByte]
  | .shr a b => [a.toByte, b.toByte]

/-- The bytes of an instruction: the opcode byte, then its operand bytes (`30_encoding.md` R55, R57). -/
def encode (i : Instr) : List Byte :=
  i.op.byte :: i.operandBytes

end Sys2Proof
end

