-- ==== Sys2Proof/Config.lean ====
section
/-! DEFINITION. The fixed parameters of the hardware (spec/00_scope.md R4). The spec leaves no value free,
so there is no opaque constant here. The opcode bytes (OPCODE_MAP) stand in Decode.lean and the reset values
in Machine/ResetValues.lean. -/

namespace Sys2Proof.Config

/-- NREGS: the number of registers (`00_scope.md` R4). -/
def nregs : Nat := 8

/-- SP_INDEX: the register that is the stack pointer (`00_scope.md` R4, `10_state.md` R14). -/
def spIndex : RegIdx := 7

/-- MEM_SIZE: the number of memory cells, addresses 0x00..0xFF (`00_scope.md` R4, `10_state.md` R28). -/
def memSize : Nat := 256

end Sys2Proof.Config
end

