-- ==== Sys2Proof/Machine/ResetValues.lean ====
section
/-! DEFINITION. The value of each register after reset (spec/70_reset_and_hazards.md R200 to R206) and what a
memory cell that nothing has written reads as (R207). -/

namespace Sys2Proof.Machine

/-- GPR_RESET: R0 to R6 after reset (`70_reset_and_hazards.md` R201, the spec's decision D11). -/
def gprReset : Byte := 0x00#8

/-- SP_RESET: R7 after reset (`70_reset_and_hazards.md` R200). -/
def spReset : Byte := 0xF4#8

/-- PC_RESET: the pc after reset (`70_reset_and_hazards.md` R202, the spec's decision D10). -/
def pcReset : Addr := 0x00#8

/-- DESIGN CHOICE (assumption 1): IR, A and B after reset, which `70_reset_and_hazards.md` R206 leaves
unspecified. The first fetch overwrites them before anything reads them. -/
def latchReset : Byte := 0x00#8

/-- What a cell that no list entry names reads as: 0x00, the content of every cell the loader did not fill
(`70_reset_and_hazards.md` R207, the spec's decision D12; assumption 2). -/
def unlistedByte : Byte := 0x00#8

end Sys2Proof.Machine
end

