-- ==== Sys2Proof/Machine/State.lean ====
section
/-! DEFINITION. The whole state of the machine, as spec/10_state.md section 1 lists it, and the state after
reset (spec/70_reset_and_hazards.md section 1). -/

namespace Sys2Proof.Machine

/-- The three flags (`10_state.md` R21): E equal, L less-than, G greater-than. Each is a bit of its own. -/
structure Flags where
  E : Bool
  L : Bool
  G : Bool
  deriving DecidableEq, Repr

/-- RUN, the run state (`10_state.md` R24). Code 3 of its 2-bit encoding is unused, so it has no constructor. -/
inductive RunState where
  | running
  | halted
  | faulted
  deriving DecidableEq, Repr

/-- The faults the hardware names (`60_exceptions.md` R175). CAUSE is one of these or none. -/
inductive FaultKind where
  /-- CAUSE 1: raised by the dispatch loop on an opcode byte that is none of the 32 (R176). -/
  | illegalInstruction
  /-- CAUSE 2: raised by DIV and MOD when x[b] = 0 (R177). -/
  | divideByZero
  /-- CAUSE 3: raised by the ALU on a tag that is none of its 14; no program reaches it (R178). -/
  | unsupportedOperation
  deriving DecidableEq, Repr

/-- The kind of an output event: which instruction emitted it (`44_output.md` R135). -/
inductive OutKind where
  | prn
  | pra
  deriving DecidableEq, Repr

/-- One event of the output stream, with the raw 8-bit value (`44_output.md` R135). -/
structure OutEvent where
  kind : OutKind
  value : Byte
  deriving DecidableEq, Repr

/-- Memory: the cells that do not read as `unlistedByte`, by rising address (`10_state.md` R28). The canonical
form is `Memory.wf`. -/
abbrev Memory := List Host.Cell

/-- The state of the LS-8 core (`10_state.md` section 1, R13 to R29). -/
structure State where
  /-- x[0] .. x[7], with x[7] the stack pointer (R13, R14). -/
  regs : Vector Byte 8
  /-- The program counter (R18). -/
  pc : Addr
  /-- E, L, G (R21). -/
  flags : Flags
  /-- RUN (R24). -/
  run : RunState
  /-- CAUSE: none is code 0 (R25). -/
  cause : Option FaultKind
  /-- IR, the instruction register, as fetched by the last step that fetched (R27). -/
  ir : Byte
  /-- Operand latch A (R27). -/
  opA : Byte
  /-- Operand latch B (R27). -/
  opB : Byte
  /-- The 256 memory cells (R28). -/
  mem : Memory
  /-- OUT: the events emitted since launch, oldest first (R29). -/
  out : List OutEvent
  deriving DecidableEq, Repr

/-- Why the host would see a step stop with a fault. The spec's own faults are no such stop: it describes
what each leaves in the state (`60_exceptions.md` R183), so the step that raises one answers a next state. -/
inductive Fault where
  /-- AddressFault, the access out of bounds that the source names and this hardware never raises, because
  addresses wrap and register indices are masked (`60_exceptions.md` R179). No definition of the model
  raises it. Safe: it would stop the machine where the hardware goes on. -/
  | addressFault
  deriving DecidableEq, Repr

/-- Why a step would be refused. -/
inductive Refusal where
  /-- An instruction that has no meaning in the model yet; `exec` raises it in such an arm, and no arm is
  one. Safe: the machine stops. -/
  | notModelled (mnemonic : String)
  deriving DecidableEq, Repr

/-- The machine right after reset (`70_reset_and_hazards.md` R200 to R207): no memory cell is listed and
nothing has been output. IR, A and B are assumption 1's. -/
def State.reset : State where
  regs := #v[gprReset, gprReset, gprReset, gprReset, gprReset, gprReset, gprReset, spReset]
  pc := pcReset
  flags := { E := false, L := false, G := false }
  run := .running
  cause := none
  ir := latchReset
  opA := latchReset
  opB := latchReset
  mem := []
  out := []

end Sys2Proof.Machine
end

