-- ==== Sys2Proof/Machine/Flags.lean ====
section
/-! DEFINITION. The flags: how CMP computes them (spec/41_alu_bitwise_compare.md R97, R98) and what the six
conditional jumps ask of them (spec/46_control_flow.md R166). No other instruction writes or reads a flag
(spec/10_state.md R22, R23). -/

namespace Sys2Proof.Machine

/-- E, L, G of comparing `x` with `y` as unsigned integers (`41_alu_bitwise_compare.md` R97). -/
def compareFlags (x y : Byte) : Flags where
  E := decide (x.toNat = y.toNat)
  L := decide (x.toNat < y.toNat)
  G := decide (x.toNat > y.toNat)

/-- The condition of JEQ: E = 1 (`46_control_flow.md` R160). -/
def condEq (f : Flags) : Bool := f.E

/-- The condition of JNE: E = 0 (`46_control_flow.md` R161). -/
def condNe (f : Flags) : Bool := !f.E

/-- The condition of JGT: G = 1 (`46_control_flow.md` R162). -/
def condGt (f : Flags) : Bool := f.G

/-- The condition of JLT: L = 1 (`46_control_flow.md` R163). -/
def condLt (f : Flags) : Bool := f.L

/-- The condition of JGE: G = 1 or E = 1 (`46_control_flow.md` R164). -/
def condGe (f : Flags) : Bool := f.G || f.E

/-- The condition of JLE: L = 1 or E = 1 (`46_control_flow.md` R165). -/
def condLe (f : Flags) : Bool := f.L || f.E

end Sys2Proof.Machine
end

