-- ==== Sys2Proof/Machine/Memory.lean ====
section
/-! DEFINITION. The memory behind the core's memory port (spec/20_memory.md R35): reading and writing one
cell, the canonical form of the list, and the list of a whole 256-byte image. -/

namespace Sys2Proof.Machine

/-- The content of the cell at address `a` (`20_memory.md` R35). -/
def Memory.read : Memory → Nat → Byte
  | [], _ => unlistedByte
  | (k, v) :: rest, a => if k = a then v else Memory.read rest a

/-- The list without its entries for address `a`, so that the cell reads as `unlistedByte`. -/
def Memory.erase : Memory → Nat → Memory
  | [], _ => []
  | (k, v) :: rest, a => if k = a then Memory.erase rest a else (k, v) :: Memory.erase rest a

/-- The list with an entry for address `a` put in before the first entry of a higher address. -/
def Memory.insert : Memory → Nat → Byte → Memory
  | [], a, v => [(a, v)]
  | (k, w) :: rest, a, v => if a < k then (a, v) :: (k, w) :: rest else (k, w) :: Memory.insert rest a v

/-- The memory after the cell at address `a` is set to `v` (`20_memory.md` R35). Setting a cell to what an
unlisted address reads as leaves no entry for it, so that the list stays canonical. -/
def Memory.write (m : Memory) (a : Nat) (v : Byte) : Memory :=
  if v = unlistedByte then m.erase a else (m.erase a).insert a v

/-- The canonical form from address `lo` on: addresses rise strictly and lie below 256, and no entry holds
what an unlisted address reads as. -/
def Memory.wfFrom : Nat → Memory → Bool
  | _, [] => true
  | lo, (k, v) :: rest =>
    decide (lo ≤ k) && decide (k < Config.memSize) && decide (v ≠ unlistedByte) && Memory.wfFrom (k + 1) rest

/-- The canonical form of memory: equal contents are equal lists. -/
def Memory.wf (m : Memory) : Bool :=
  Memory.wfFrom 0 m

/-- The memory whose cells from address `a` on hold the given bytes. -/
def Memory.ofBytesFrom : Nat → List Byte → Memory
  | _, [] => []
  | a, b :: bs =>
    if b = unlistedByte then Memory.ofBytesFrom (a + 1) bs else (a, b) :: Memory.ofBytesFrom (a + 1) bs

/-- The memory that holds INIT_MEM, 256 given bytes (`70_reset_and_hazards.md` R207). -/
def Memory.ofImage (image : Vector Byte 256) : Memory :=
  Memory.ofBytesFrom 0 image.toList

end Sys2Proof.Machine
end

