-- ==== Sys2Proof/Machine/Ops.lean ====
section
/-! DEFINITION. The named operations on the state that every instruction is built from (the pseudocode
primitives of spec/00_scope.md R6): registers, memory port, pc, output port, stack, fetch, and the one
operation that raises a fault. There is no return from a fault (spec/60_exceptions.md R186), so there is no
operation beside it that undoes it. -/

namespace Sys2Proof.Machine

/-! ### Registers -/

/-- `x[i]` (`00_scope.md` R6). No register is hardwired (`10_state.md` R15). -/
def readReg (s : State) (i : RegIdx) : Byte :=
  s.regs[i.val]

/-- `x[i] <- v` (`00_scope.md` R6, `10_state.md` R17). -/
def writeReg (i : RegIdx) (v : Byte) (s : State) : State :=
  { s with regs := s.regs.set i.val v }

/-- SP, the other name of `x[7]` (`10_state.md` R14). -/
def readSp (s : State) : Byte :=
  readReg s Config.spIndex

/-- `SP <- v`. -/
def writeSp (v : Byte) (s : State) : State :=
  writeReg Config.spIndex v s

/-! ### Memory port -/

/-- `MemRead(a, 1)` (`20_memory.md` R35): any address is in range and no read has an effect (R41, R49). -/
def readMem (s : State) (a : Addr) : Byte :=
  Memory.read s.mem a.toNat

/-- `MemWrite(a, 1, v)` (`20_memory.md` R35): exactly one cell changes (R41). -/
def writeMem (a : Addr) (v : Byte) (s : State) : State :=
  { s with mem := Memory.write s.mem a.toNat v }

/-! ### Program counter -/

/-- `pc <- t` (`00_scope.md` R6). -/
def setPc (t : Addr) (s : State) : State :=
  { s with pc := t }

/-- `pc <- pc + n`, modulo 256 (`42_dispatch.md` R107). -/
def advance (n : Byte) (s : State) : State :=
  setPc (s.pc + n) s

/-! ### Flags, run state, output port -/

/-- Write E, L and G, all three at once (`10_state.md` R22). -/
def setFlags (f : Flags) (s : State) : State :=
  { s with flags := f }

/-- `RUN <- HALTED` (`42_dispatch.md` R109). -/
def halt (s : State) : State :=
  { s with run := .halted }

/-- `Out(kind, v)`: append one event to the output stream; the port always accepts (`44_output.md` R135). -/
def emit (kind : OutKind) (v : Byte) (s : State) : State :=
  { s with out := s.out ++ [{ kind := kind, value := v }] }

/-! ### Faults -/

/-- `raise F`: RUN becomes FAULTED and CAUSE records the fault; nothing else is written, so the pc stays at the
opcode byte and IR, A, B stay as fetched (`60_exceptions.md` R183, R184). -/
def raiseFault (f : FaultKind) (s : State) : State :=
  { s with cause := some f, run := .faulted }

/-- What the dispatch loop does with a byte that is no opcode, for whichever reason (`42_dispatch.md` R111,
`60_exceptions.md` R176). -/
def rejectOpcode (_why : DecodeError) (s : State) : State :=
  raiseFault .illegalInstruction s

/-! ### Stack -/

/-- The address a push stores to: SP - 1, modulo 256 (`45_stack.md` R145, R146). -/
def pushAddr (s : State) : Addr :=
  readSp s - 1#8

/-- `SP <- SP - 1`, the first half of a push (`45_stack.md` R146). -/
def decrementSp (s : State) : State :=
  writeSp (pushAddr s) s

/-- Write `v` at the top of the stack, the second half of a push (`45_stack.md` R146). -/
def storeTop (v : Byte) (s : State) : State :=
  writeMem (readSp s) v s

/-- The byte at the top of the stack, which a pop reads (`45_stack.md` R148). -/
def readTop (s : State) : Byte :=
  readMem s (readSp s)

/-- `SP <- SP + 1`, the second half of a pop (`45_stack.md` R148). -/
def incrementSp (s : State) : State :=
  writeSp (readSp s + 1#8) s

/-! ### Fetch -/

/-- The fetch at the start of every step in RUNNING: IR, A and B from pc, pc + 1 and pc + 2, always all three,
modulo 256 (`42_dispatch.md` R105, R112). -/
def fetch (s : State) : State :=
  { s with
    ir := readMem s s.pc
    opA := readMem s (s.pc + 1#8)
    opB := readMem s (s.pc + 2#8) }

/-- Store three bytes where the next step fetches, and let it fetch. -/
def placeAtPc (ir A B : Byte) (s : State) : State :=
  { writeMem (s.pc + 2#8) B (writeMem (s.pc + 1#8) A (writeMem s.pc ir s)) with run := .running }

end Sys2Proof.Machine
end

