-- ==== Sys2Proof/Machine/Operands.lean ====
section
/-! DEFINITION. The operand forms of the LS-8 (spec/30_encoding.md R57 to R60): a register to read, a register
to write, the memory cell a register points to, and the immediate byte. -/

namespace Sys2Proof.Machine

/-- The value of a register operand: `x[a]` with `a` the low three bits of the byte (`30_encoding.md` R59). -/
def operandValue (a : RegOperand) (s : State) : Byte :=
  readReg s a.index

/-- Write a register operand (`30_encoding.md` R59). -/
def writeOperand (a : RegOperand) (v : Byte) (s : State) : State :=
  writeReg a.index v s

/-- The one addressing mode, register indirect: the address is the content of the register, with no offset and
no change of the register (`43_data_movement.md`, its opening paragraph). Jumps and CALL take their target so
too (`46_control_flow.md` R155). -/
def indirectAddr (a : RegOperand) (s : State) : Addr :=
  operandValue a s

/-- The immediate of LDI: the whole byte, neither extended nor scaled (`30_encoding.md` R60). -/
def immediateValue (imm : Byte) : Byte :=
  imm

end Sys2Proof.Machine
end

