-- ==== Sys2Proof/Machine/Alu.lean ====
section
/-! DEFINITION. The ALU (spec/40_alu_arithmetic.md R75, R76, R77; spec/41_alu_bitwise_compare.md R90): its 14
operations as a function of a tag and two operand values, and its use by the dispatch loop. -/

namespace Sys2Proof.Machine

/-- The 14 operations (`40_alu_arithmetic.md`, the source's effect table). -/
inductive AluOp where
  | add | sub | mul | div | mod | inc | dec | and | or | xor | not | shl | shr | cmp
  deriving DecidableEq, Repr

/-- What the ALU can be handed as an operation tag: one of the 14, or anything else (`40_alu_arithmetic.md`
R77; the spec fixes no binary encoding, its decision D18). -/
inductive AluTag where
  | op (o : AluOp)
  | unrecognised
  deriving DecidableEq, Repr

/-- What the ALU answers: a value for x[a], the three flags, or a fault. -/
inductive AluAnswer where
  | value (v : Byte)
  | flags (f : Flags)
  | fault (f : FaultKind)
  deriving DecidableEq, Repr

/-- `x << y`: by the whole value of y, and 0 from 8 on (`41_alu_bitwise_compare.md` R90, R95). -/
def shiftLeft (x y : Byte) : Byte :=
  if y.toNat ≥ 8 then 0#8 else BitVec.ofNat 8 (x.toNat * 2 ^ y.toNat)

/-- `x >> y`, logical: by the whole value of y, and 0 from 8 on (`41_alu_bitwise_compare.md` R90, R96). -/
def shiftRight (x y : Byte) : Byte :=
  if y.toNat ≥ 8 then 0#8 else BitVec.ofNat 8 (x.toNat / 2 ^ y.toNat)

/-- The ALU as a function of the tag and the operand values (`40_alu_arithmetic.md` R76,
`41_alu_bitwise_compare.md` R90, R97). The unary operations ignore `y`. Results wrap modulo 2^8. -/
def aluAnswer (tag : AluTag) (x y : Byte) : AluAnswer :=
  match tag with
  | .op .add => .value (x + y)
  | .op .sub => .value (x - y)
  | .op .mul => .value (x * y)
  | .op .div => if y = 0#8 then .fault .divideByZero else .value (x / y)
  | .op .mod => if y = 0#8 then .fault .divideByZero else .value (x % y)
  | .op .inc => .value (x + 1#8)
  | .op .dec => .value (x - 1#8)
  | .op .and => .value (x &&& y)
  | .op .or => .value (x ||| y)
  | .op .xor => .value (x ^^^ y)
  | .op .not => .value (~~~x)
  | .op .shl => .value (shiftLeft x y)
  | .op .shr => .value (shiftRight x y)
  | .op .cmp => .flags (compareFlags x y)
  | .unrecognised => .fault .unsupportedOperation

/-- One use of the ALU by the dispatch loop: both operands are read before any write; then x[a] or the flags are
written and the pc advances by the instruction's length, or the fault is raised and nothing else changes
(`40_alu_arithmetic.md` R75, R76, R77, R85; `42_dispatch.md` R107). -/
def useAlu (tag : AluTag) (a b : RegOperand) (length : Byte) (s : State) : State :=
  match aluAnswer tag (operandValue a s) (operandValue b s) with
  | .value v => advance length (writeOperand a v s)
  | .flags f => advance length (setFlags f s)
  | .fault f => raiseFault f s

/-- A binary operation or CMP, format RR, three bytes (`40_alu_arithmetic.md` R75). -/
def aluBinary (o : AluOp) (a b : RegOperand) (s : State) : State :=
  useAlu (.op o) a b 3#8 s

/-- A unary operation, format R, two bytes; the operation ignores its second operand (`40_alu_arithmetic.md`
R85(d)), for which the first stands in. -/
def aluUnary (o : AluOp) (a : RegOperand) (s : State) : State :=
  useAlu (.op o) a a 2#8 s

end Sys2Proof.Machine
end

