-- ==== Sys2Proof/Machine/Arithmetic.lean ====
section
/-! DEFINITION. The arithmetic instructions of the ALU: ADD SUB MUL DIV MOD INC DEC
(spec/40_alu_arithmetic.md section 2). -/

namespace Sys2Proof.Machine

/-- ADD: `x[a] <- (x + y) mod 256` (`40_alu_arithmetic.md` R78). -/
def execAdd (a b : RegOperand) (s : State) : Host.Outcome State Fault Refusal :=
  .next (aluBinary .add a b s)

/-- SUB: `x[a] <- (x - y) mod 256` (`40_alu_arithmetic.md` R79). -/
def execSub (a b : RegOperand) (s : State) : Host.Outcome State Fault Refusal :=
  .next (aluBinary .sub a b s)

/-- MUL: `x[a] <- (x * y) mod 256` (`40_alu_arithmetic.md` R80). -/
def execMul (a b : RegOperand) (s : State) : Host.Outcome State Fault Refusal :=
  .next (aluBinary .mul a b s)

/-- DIV: the unsigned quotient, or DivideByZero when y = 0 (`40_alu_arithmetic.md` R81, `60_exceptions.md` R177). -/
def execDiv (a b : RegOperand) (s : State) : Host.Outcome State Fault Refusal :=
  .next (aluBinary .div a b s)

/-- MOD: the unsigned remainder, or DivideByZero when y = 0 (`40_alu_arithmetic.md` R82, `60_exceptions.md` R177). -/
def execMod (a b : RegOperand) (s : State) : Host.Outcome State Fault Refusal :=
  .next (aluBinary .mod a b s)

/-- INC: `x[a] <- (x[a] + 1) mod 256` (`40_alu_arithmetic.md` R83). -/
def execInc (a : RegOperand) (s : State) : Host.Outcome State Fault Refusal :=
  .next (aluUnary .inc a s)

/-- DEC: `x[a] <- (x[a] - 1) mod 256` (`40_alu_arithmetic.md` R84). -/
def execDec (a : RegOperand) (s : State) : Host.Outcome State Fault Refusal :=
  .next (aluUnary .dec a s)

end Sys2Proof.Machine
end

