-- ==== Sys2Proof/Machine/Bitwise.lean ====
section
/-! DEFINITION. The bitwise and comparison instructions of the ALU: AND OR XOR NOT SHL SHR CMP
(spec/41_alu_bitwise_compare.md). -/

namespace Sys2Proof.Machine

/-- AND: `x[a] <- x[a] & x[b]` (`41_alu_bitwise_compare.md` R91). -/
def execAnd (a b : RegOperand) (s : State) : Host.Outcome State Fault Refusal :=
  .next (aluBinary .and a b s)

/-- OR: `x[a] <- x[a] | x[b]` (`41_alu_bitwise_compare.md` R92). -/
def execOr (a b : RegOperand) (s : State) : Host.Outcome State Fault Refusal :=
  .next (aluBinary .or a b s)

/-- XOR: `x[a] <- x[a] ^ x[b]` (`41_alu_bitwise_compare.md` R93). -/
def execXor (a b : RegOperand) (s : State) : Host.Outcome State Fault Refusal :=
  .next (aluBinary .xor a b s)

/-- NOT: `x[a] <- 255 - x[a]` (`41_alu_bitwise_compare.md` R94). -/
def execNot (a : RegOperand) (s : State) : Host.Outcome State Fault Refusal :=
  .next (aluUnary .not a s)

/-- SHL: `x[a] <- x << y`, 0 for y of 8 and over (`41_alu_bitwise_compare.md` R95). -/
def execShl (a b : RegOperand) (s : State) : Host.Outcome State Fault Refusal :=
  .next (aluBinary .shl a b s)

/-- SHR: `x[a] <- x >> y`, logical, 0 for y of 8 and over (`41_alu_bitwise_compare.md` R96). -/
def execShr (a b : RegOperand) (s : State) : Host.Outcome State Fault Refusal :=
  .next (aluBinary .shr a b s)

/-- CMP: E, L and G of x against y, unsigned; no register is written (`41_alu_bitwise_compare.md` R97). -/
def execCmp (a b : RegOperand) (s : State) : Host.Outcome State Fault Refusal :=
  .next (aluBinary .cmp a b s)

end Sys2Proof.Machine
end

