-- ==== Sys2Proof/Machine/ControlFlow.lean ====
section
/-! DEFINITION. The control transfers: CALL RET JMP and the six conditional jumps (spec/46_control_flow.md).
Each writes the pc itself (R155). -/

namespace Sys2Proof.Machine

/-- CALL's push: SP is decremented and the address of the instruction after the two-byte CALL is written at the
new top (`46_control_flow.md` R156). -/
def pushReturn (s : State) : State :=
  storeTop (s.pc + 2#8) (decrementSp s)

/-- CALL: push pc + 2, then the pc takes the operand register, read after the push, so that `CALL R7` jumps to
the cell of its return address (`46_control_flow.md` R156, R157). -/
def execCall (a : RegOperand) (s : State) : Host.Outcome State Fault Refusal :=
  .next (setPc (indirectAddr a (pushReturn s)) (pushReturn s))

/-- RET: the pc takes the byte at the top, then SP is incremented (`46_control_flow.md` R158). -/
def execRet (s : State) : Host.Outcome State Fault Refusal :=
  .next (incrementSp (setPc (readTop s) s))

/-- JMP: `pc <- x[a]` (`46_control_flow.md` R159). -/
def execJmp (a : RegOperand) (s : State) : Host.Outcome State Fault Refusal :=
  .next (setPc (indirectAddr a s) s)

/-- A conditional jump: to x[a] if the condition holds of the flags, else past its two bytes
(`46_control_flow.md` R166). -/
def jumpIf (cond : Bool) (a : RegOperand) (s : State) : State :=
  if cond then setPc (indirectAddr a s) s else advance 2#8 s

/-- JEQ: taken when E = 1 (`46_control_flow.md` R160). -/
def execJeq (a : RegOperand) (s : State) : Host.Outcome State Fault Refusal :=
  .next (jumpIf (condEq s.flags) a s)

/-- JNE: taken when E = 0 (`46_control_flow.md` R161). -/
def execJne (a : RegOperand) (s : State) : Host.Outcome State Fault Refusal :=
  .next (jumpIf (condNe s.flags) a s)

/-- JGT: taken when G = 1 (`46_control_flow.md` R162). -/
def execJgt (a : RegOperand) (s : State) : Host.Outcome State Fault Refusal :=
  .next (jumpIf (condGt s.flags) a s)

/-- JLT: taken when L = 1 (`46_control_flow.md` R163). -/
def execJlt (a : RegOperand) (s : State) : Host.Outcome State Fault Refusal :=
  .next (jumpIf (condLt s.flags) a s)

/-- JLE: taken when L = 1 or E = 1 (`46_control_flow.md` R165). -/
def execJle (a : RegOperand) (s : State) : Host.Outcome State Fault Refusal :=
  .next (jumpIf (condLe s.flags) a s)

/-- JGE: taken when G = 1 or E = 1 (`46_control_flow.md` R164). -/
def execJge (a : RegOperand) (s : State) : Host.Outcome State Fault Refusal :=
  .next (jumpIf (condGe s.flags) a s)

end Sys2Proof.Machine
end

