-- ==== Sys2Proof/Machine/DataMovement.lean ====
section
/-! DEFINITION. The data movement instructions: LDI LD ST (spec/43_data_movement.md). -/

namespace Sys2Proof.Machine

/-- LDI: `x[a] <- B` (`43_data_movement.md` R125). -/
def execLdi (a : RegOperand) (imm : Byte) (s : State) : Host.Outcome State Fault Refusal :=
  .next (advance 3#8 (writeOperand a (immediateValue imm) s))

/-- LD: `x[a] <- MemRead(x[b], 1)`, the address read before the register is written (`43_data_movement.md` R126). -/
def execLd (a b : RegOperand) (s : State) : Host.Outcome State Fault Refusal :=
  .next (advance 3#8 (writeOperand a (readMem s (indirectAddr b s)) s))

/-- ST: `MemWrite(x[a], 1, x[b])`, the address register first (`43_data_movement.md` R127). -/
def execSt (a b : RegOperand) (s : State) : Host.Outcome State Fault Refusal :=
  .next (advance 3#8 (writeMem (indirectAddr a s) (operandValue b s) s))

end Sys2Proof.Machine
end

