-- ==== Sys2Proof/Machine/Output.lean ====
section
/-! DEFINITION. The output instructions: PRN PRA (spec/44_output.md). -/

namespace Sys2Proof.Machine

/-- PRN: `Out(PRN, x[a])` (`44_output.md` R136). -/
def execPrn (a : RegOperand) (s : State) : Host.Outcome State Fault Refusal :=
  .next (advance 2#8 (emit .prn (operandValue a s) s))

/-- PRA: `Out(PRA, x[a])` (`44_output.md` R137). -/
def execPra (a : RegOperand) (s : State) : Host.Outcome State Fault Refusal :=
  .next (advance 2#8 (emit .pra (operandValue a s) s))

end Sys2Proof.Machine
end

