-- ==== Sys2Proof/Machine/Stack.lean ====
section
/-! DEFINITION. The stack instructions: PUSH POP (spec/45_stack.md). -/

namespace Sys2Proof.Machine

/-- PUSH's effects before the pc moves: SP is decremented, then the operand register is read and its value is
written at the new top, so that `PUSH R7` pushes the decremented SP (`45_stack.md` R146, R147). -/
def pushOperand (a : RegOperand) (s : State) : State :=
  storeTop (operandValue a (decrementSp s)) (decrementSp s)

/-- POP's effects before the pc moves: the operand register takes the byte at the old top, then SP, as it then
stands, is incremented, so that `POP R7` leaves the popped byte plus 1 (`45_stack.md` R147, R148). -/
def popOperand (a : RegOperand) (s : State) : State :=
  incrementSp (writeOperand a (readTop s) s)

/-- PUSH (`45_stack.md` R146). -/
def execPush (a : RegOperand) (s : State) : Host.Outcome State Fault Refusal :=
  .next (advance 2#8 (pushOperand a s))

/-- POP (`45_stack.md` R148). -/
def execPop (a : RegOperand) (s : State) : Host.Outcome State Fault Refusal :=
  .next (advance 2#8 (popOperand a s))

end Sys2Proof.Machine
end

