-- ==== Sys2Proof/Machine/System.lean ====
section
/-! DEFINITION. NOP and HLT (spec/42_dispatch.md). -/

namespace Sys2Proof.Machine

/-- NOP: the pc advances by 1 and nothing else changes (`42_dispatch.md` R110). -/
def execNop (s : State) : Host.Outcome State Fault Refusal :=
  .next (advance 1#8 s)

/-- HLT: RUN becomes HALTED; the pc stays at the HLT byte (`42_dispatch.md` R109). -/
def execHlt (s : State) : Host.Outcome State Fault Refusal :=
  .next (halt s)

end Sys2Proof.Machine
end

