-- ==== Sys2Proof/Machine/Step.lean ====
section
/-! DEFINITION. The step function (spec/42_dispatch.md R105) and the fixed entry by which the host places one
instruction where the next step fetches. -/

namespace Sys2Proof.Machine

/-- The part of a step after the fetch: run the decoded instruction, or raise IllegalInstruction
(`42_dispatch.md` R105, R111). -/
def dispatch (s : State) : Host.Outcome State Fault Refusal :=
  match decode s.ir s.opA s.opB with
  | .instr i => exec i s
  | .illegal why => .next (rejectOpcode why s)

/-- One step (`42_dispatch.md` R105): fetch IR, A and B, then dispatch. In HALTED and in FAULTED a step changes
nothing (R106). -/
def step (s : State) : Host.Outcome State Fault Refusal :=
  match s.run with
  | .running => dispatch (fetch s)
  | .halted => .next s
  | .faulted => .next s

/-- `s` with an instruction of spec/opcode_table.json stored at the pc, so that the next step fetches and runs
it: three bytes, those beyond the row's bits zero, and RUN = RUNNING, without which no step fetches. -/
def State.withFetchWord (s : State) (nbits w : Nat) : State :=
  placeAtPc (tableByte nbits w 0) (tableByte nbits w 1) (tableByte nbits w 2) s

end Sys2Proof.Machine
end

