-- ==== Sys2Proof/Machine/Observe.lean ====
section
/-! DEFINITION. What an observer reads of the state without changing it: the numeric codes of RUN and CAUSE
(spec/10_state.md R24, spec/60_exceptions.md R175), the flags as one byte (R31) and the text the external
collaborator makes of an output event (spec/44_output.md R138). No step uses any of it. -/

namespace Sys2Proof.Machine

/-- The 2-bit code of RUN (`10_state.md` R24). -/
def RunState.code : RunState → BitVec 2
  | .running => 0#2
  | .halted => 1#2
  | .faulted => 2#2

/-- The 2-bit code of CAUSE (`60_exceptions.md` R175). -/
def causeCode : Option FaultKind → BitVec 2
  | none => 0#2
  | some .illegalInstruction => 1#2
  | some .divideByZero => 2#2
  | some .unsupportedOperation => 3#2

/-- The flags as one byte, `0b00000LGE` (`10_state.md` R31, from general knowledge; no instruction sees it). -/
def Flags.toByte (f : Flags) : Byte :=
  BitVec.ofNat 8 (4 * f.L.toNat + 2 * f.G.toNat + f.E.toNat)

/-- The decimal digits of a number below 1000, without leading zeros, as code points. -/
def decimalDigits (n : Nat) : List Nat :=
  if n < 10 then [48 + n]
  else if n < 100 then [48 + n / 10, 48 + n % 10]
  else [48 + n / 100, 48 + n / 10 % 10, 48 + n % 10]

/-- The text of an event, as code points: PRN is the decimal numeral and a newline, PRA is the one character
whose code point is the value (`44_output.md` R138). How a code point of 128 and over becomes bytes is not
in the spec. -/
def OutEvent.text (e : OutEvent) : List Nat :=
  match e.kind with
  | .prn => decimalDigits e.value.toNat ++ [10]
  | .pra => [e.value.toNat]

end Sys2Proof.Machine
end

