-- ==== Sys2Proof/Machine/Launch.lean ====
section
/-! DEFINITION. What the outside world does to the machine: the reset input and the launch
(spec/70_reset_and_hazards.md R204, R207, R208; spec/60_exceptions.md R192). -/

namespace Sys2Proof.Machine

/-- The reset input, which may be applied in any state: registers, pc, flags, RUN and CAUSE take their reset
values, memory and the output already emitted stay (`70_reset_and_hazards.md` R204). IR, A and B take
assumption 1's value. -/
def applyReset (s : State) : State :=
  { State.reset with mem := s.mem, out := s.out }

/-- The state at the first step of a run: reset, with the 256 bytes INIT_MEM in memory and nothing output
(`70_reset_and_hazards.md` R207). -/
def launch (initMem : Vector Byte 256) : State :=
  { State.reset with mem := Memory.ofImage initMem }

end Sys2Proof.Machine
end

