-- ==== Sys2Proof/Safety.lean ====
section
/-! DEFINITION. The terms claims are made in: when a run is over and when it ended well
(spec/42_dispatch.md R113), what an instruction leaves unchanged, what it means that an opcode byte encodes an
instruction, and the invariant of the machine. -/

namespace Sys2Proof.Machine

/-! ### The end of a run -/

/-- The run is over: RUN is HALTED or FAULTED (`42_dispatch.md` R113). -/
def State.over (s : State) : Prop :=
  s.run = .halted ∨ s.run = .faulted

/-- The run ended well: only when RUN = HALTED (`42_dispatch.md` R113, `60_exceptions.md` R183). -/
def State.endedWell (s : State) : Prop :=
  s.run = .halted

/-! ### Frames: what `t` keeps of `s` -/

/-- Every register but those listed. -/
def KeepsRegsBut (written : List RegIdx) (s t : State) : Prop :=
  ∀ r, r ∉ written → readReg t r = readReg s r

/-- Every register. -/
def KeepsRegs (s t : State) : Prop :=
  ∀ r, readReg t r = readReg s r

/-- E, L and G. -/
def KeepsFlags (s t : State) : Prop :=
  t.flags = s.flags

/-- RUN, CAUSE and the fetch latches. -/
def KeepsControl (s t : State) : Prop :=
  t.run = s.run ∧ t.cause = s.cause ∧ t.ir = s.ir ∧ t.opA = s.opA ∧ t.opB = s.opB

/-- Every memory cell. -/
def KeepsMem (s t : State) : Prop :=
  ∀ a, readMem t a = readMem s a

/-- Every memory cell but the one at `w`. -/
def KeepsMemBut (w : Addr) (s t : State) : Prop :=
  ∀ a, a ≠ w → readMem t a = readMem s a

/-- The output stream. -/
def KeepsOut (s t : State) : Prop :=
  t.out = s.out

/-! ### Encodings -/

/-- The opcode byte `op` encodes the operandless instruction `i`, whatever the two bytes after it
(`30_encoding.md` R57, format Z). -/
def EncodesZ (op : Byte) (i : Instr) : Prop :=
  ∀ A B, decode op A B = .instr i

/-- The opcode byte `op` encodes `mk a`, `a` being the low three bits of the byte after it, whatever its other
bits and the next byte (`30_encoding.md` R57, R59, format R). -/
def EncodesR (op : Byte) (mk : RegOperand → Instr) : Prop :=
  ∀ A B, ∃ a, decode op A B = .instr (mk a) ∧ a.index.val = A.toNat % 8

/-- The opcode byte `op` encodes `mk a b`, `a` and `b` being the low three bits of the two bytes after it,
whatever their other bits (`30_encoding.md` R57, R59, format RR). -/
def EncodesRR (op : Byte) (mk : RegOperand → RegOperand → Instr) : Prop :=
  ∀ A B, ∃ a b, decode op A B = .instr (mk a b) ∧ a.index.val = A.toNat % 8 ∧ b.index.val = B.toNat % 8

/-- The opcode byte `op` encodes `mk a imm`, `a` being the low three bits of the byte after it and `imm` the
whole byte after that (`30_encoding.md` R57, R59, R60, format RI). -/
def EncodesRI (op : Byte) (mk : RegOperand → Byte → Instr) : Prop :=
  ∀ A B, ∃ a, decode op A B = .instr (mk a B) ∧ a.index.val = A.toNat % 8

/-- The 32 opcode bytes as `30_encoding.md` R62 prints them, written out a second time: claims about legal and
illegal bytes do not rest on the decoder's own table. -/
def definedOpcodeBytes : List Byte :=
  [0x00#8, 0x01#8, 0x11#8, 0x45#8, 0x46#8, 0x47#8, 0x48#8, 0x50#8, 0x54#8, 0x55#8, 0x56#8, 0x57#8, 0x58#8,
   0x59#8, 0x5A#8, 0x65#8, 0x66#8, 0x69#8, 0x82#8, 0x83#8, 0x84#8, 0xA0#8, 0xA1#8, 0xA2#8, 0xA3#8, 0xA4#8,
   0xA7#8, 0xA8#8, 0xAA#8, 0xAB#8, 0xAC#8, 0xAD#8]

/-- The opcode byte that the next step fetches (`42_dispatch.md` R105). -/
def opcodeAtPc (s : State) : Byte :=
  readMem s s.pc

/-- The register index in the operand byte A that the next step fetches (`30_encoding.md` R59). -/
def indexA (s : State) : RegIdx :=
  Fin.ofNat 8 (readMem s (s.pc + 1#8)).toNat

/-- The register index in the operand byte B that the next step fetches (`30_encoding.md` R59). -/
def indexB (s : State) : RegIdx :=
  Fin.ofNat 8 (readMem s (s.pc + 2#8)).toNat

/-! ### Shapes of instructions -/

/-- Every instruction `mk a b` completes: x[a] takes `f` of the old x[a] and x[b], the pc moves past three bytes,
and nothing else changes. -/
def ComputesRR (mk : RegOperand → RegOperand → Instr) (f : Nat → Nat → Nat) : Prop :=
  ∀ (a b : RegOperand) (s : State), ∃ t, exec (mk a b) s = .next t ∧
    (readReg t a.index).toNat = f (readReg s a.index).toNat (readReg s b.index).toNat ∧
    t.pc.toNat = (s.pc.toNat + 3) % 256 ∧
    KeepsRegsBut [a.index] s t ∧ KeepsFlags s t ∧ KeepsControl s t ∧ KeepsMem s t ∧ KeepsOut s t

/-- Every instruction `mk a` completes: x[a] takes `f` of the old x[a], the pc moves past two bytes, and nothing
else changes. -/
def ComputesR (mk : RegOperand → Instr) (f : Nat → Nat) : Prop :=
  ∀ (a : RegOperand) (s : State), ∃ t, exec (mk a) s = .next t ∧
    (readReg t a.index).toNat = f (readReg s a.index).toNat ∧
    t.pc.toNat = (s.pc.toNat + 2) % 256 ∧
    KeepsRegsBut [a.index] s t ∧ KeepsFlags s t ∧ KeepsControl s t ∧ KeepsMem s t ∧ KeepsOut s t

/-- `mk a b` divides: with x[b] not 0 it completes as `ComputesRR` says, with `f` of the old values; with x[b] = 0
it raises DivideByZero, which writes RUN and CAUSE and nothing else (`60_exceptions.md` R177, R183). -/
def DividesOrFaults (mk : RegOperand → RegOperand → Instr) (f : Nat → Nat → Nat) : Prop :=
  ∀ (a b : RegOperand) (s : State),
    (readReg s b.index ≠ 0#8 → ∃ t, exec (mk a b) s = .next t ∧
      (readReg t a.index).toNat = f (readReg s a.index).toNat (readReg s b.index).toNat ∧
      t.pc.toNat = (s.pc.toNat + 3) % 256 ∧
      KeepsRegsBut [a.index] s t ∧ KeepsFlags s t ∧ KeepsControl s t ∧ KeepsMem s t ∧ KeepsOut s t) ∧
    (readReg s b.index = 0#8 →
      exec (mk a b) s = .next { s with run := .faulted, cause := some .divideByZero })

/-- `mk a` completes and jumps: to x[a] when `cond` holds of the flags, past its two bytes when it does not;
nothing but the pc changes. -/
def JumpsWhen (mk : RegOperand → Instr) (cond : Flags → Prop) : Prop :=
  ∀ (a : RegOperand) (s : State), ∃ t, exec (mk a) s = .next t ∧
    (cond s.flags → t.pc = readReg s a.index) ∧
    (¬ cond s.flags → t.pc.toNat = (s.pc.toNat + 2) % 256) ∧
    KeepsRegs s t ∧ KeepsFlags s t ∧ KeepsControl s t ∧ KeepsMem s t ∧ KeepsOut s t

/-- `mk a` completes and emits the event (kind, x[a]), after those already emitted; the pc moves past its two
bytes and nothing else changes. -/
def Emits (mk : RegOperand → Instr) (kind : OutKind) : Prop :=
  ∀ (a : RegOperand) (s : State), ∃ t, exec (mk a) s = .next t ∧
    t.out = s.out ++ [{ kind := kind, value := readReg s a.index }] ∧
    t.pc.toNat = (s.pc.toNat + 2) % 256 ∧
    KeepsRegs s t ∧ KeepsFlags s t ∧ KeepsControl s t ∧ KeepsMem s t

/-! ### The invariant of the machine -/

/-- The flag combinations that can occur: all clear before the first CMP, exactly one set after any
(`10_state.md` R23, `41_alu_bitwise_compare.md` R98). -/
abbrev Flags.atMostOne (f : Flags) : Prop :=
  (f.E = false ∨ f.L = false) ∧ (f.E = false ∨ f.G = false) ∧ (f.L = false ∨ f.G = false)

/-- What holds of every state a run can reach: memory is in its canonical form; CAUSE is set exactly in FAULTED
(`10_state.md` R24, R25); CAUSE is never UnsupportedOperation (`60_exceptions.md` R178); at most one flag is
set (`10_state.md` R23). -/
structure State.Inv (s : State) : Prop where
  memory : Memory.wf s.mem = true
  cause_iff_faulted : s.cause.isSome = true ↔ s.run = .faulted
  cause_supported : s.cause ≠ some .unsupportedOperation
  flags : s.flags.atMostOne

end Sys2Proof.Machine
end

