-- ==== Sys2Proof/Certificates/Slice0/Obligations.lean ====
section
/-! DEFINITION. The statements for the provers, with the rules of spec/ they formalise. The spec's own decisions
(spec/92_eei_decisions.md D<n>) are part of the hardware it specifies; a docstring names the ones a statement
turns on. Opcode bytes are those of spec/30_encoding.md R62, which the spec supplies from general knowledge. -/

open Sys2Proof Sys2Proof.Machine

/-! ### Reset and launch -/

/-- R200 to R203, R205: whatever the state, the reset input gives R7 = 0xF4, R0 to R6 = 0 (D11), pc = 0 (D10),
E = L = G = 0, RUN = RUNNING (R204), CAUSE = none (D13), and leaves memory and the emitted output alone. -/
def Obligations.ResetInputSetsRegistersAndKeepsMemory : Prop :=
  ∀ s : State,
    readReg (applyReset s) 7 = 0xF4#8 ∧ (∀ r : RegIdx, r ≠ 7 → readReg (applyReset s) r = 0x00#8) ∧
    (applyReset s).pc = 0x00#8 ∧
    (applyReset s).flags.E = false ∧ (applyReset s).flags.L = false ∧ (applyReset s).flags.G = false ∧
    (applyReset s).run = .running ∧ (applyReset s).cause = none ∧
    KeepsMem s (applyReset s) ∧ KeepsOut s (applyReset s)

/-- R207: at launch every one of the 256 cells holds INIT_MEM's byte, in canonical form, the output is empty, and
all else is as the reset input leaves it. -/
def Obligations.LaunchHoldsInitMem : Prop :=
  ∀ initMem : Vector Byte 256,
    (∀ i : Fin 256, readMem (launch initMem) (BitVec.ofNat 8 i.val) = initMem[i.val]) ∧
    Memory.wf (launch initMem).mem = true ∧ (launch initMem).out = [] ∧
    { launch initMem with mem := [] } = State.reset

/-! ### Encoding -/

/-- R63, the constraints on the opcode bytes: no two instructions share one; bits 7:6 are 0 for NOP HLT RET, 1 for
the 15 of format R, 2 for the other 14; bit 4 is set for exactly the nine control transfers; a conditional
jump's and CALL's 1 + N is 2. -/
def Obligations.OpcodeBytesMeetTheFieldRules : Prop :=
  (∀ o p : Op, o.byte = p.byte → o = p) ∧
  (∀ o : Op, operandCount o.byte =
    if o ∈ [Op.nop, .hlt, .ret] then 0
    else if o ∈ [Op.inc, .dec, .not, .prn, .pra, .push, .pop, .call, .jmp, .jeq, .jne, .jgt, .jlt, .jge, .jle] then 1
    else 2) ∧
  (∀ o : Op, pcControl o.byte = true ↔
    o ∈ [Op.call, .ret, .jmp, .jeq, .jne, .jgt, .jlt, .jge, .jle]) ∧
  (∀ o ∈ [Op.jeq, .jne, .jgt, .jlt, .jge, .jle, .call], 1 + operandCount o.byte = 2)

/-- R65, R66 (D4, D19): the decoder rejects exactly the 224 bytes that are not among the 32 of R62, whatever the
operand bytes. That a rejection carries one of two names, `threeOperandBytes` for the bytes with bits 7:6 = 3
and `unassignedOpcode` for every other, is the model's choice, log entry 4: the spec names no such reasons. -/
def Obligations.DecoderRejectsExactlyTheIllegalBytes : Prop :=
  (∀ ir A B : Byte, (∃ why, decode ir A B = .illegal why) ↔ ir ∉ definedOpcodeBytes) ∧
  (∀ ir A B : Byte, ir.toNat ≥ 0xC0 → decode ir A B = .illegal (.threeOperandBytes ir)) ∧
  (∀ ir A B : Byte, ir.toNat < 0xC0 → ir ∉ definedOpcodeBytes → decode ir A B = .illegal (.unassignedOpcode ir)) ∧
  definedOpcodeBytes.Nodup ∧ definedOpcodeBytes.length = 32

/-- Words written out bit by bit from the encodings of R57, R59, R60, R62 decode to their instructions, one per
family, ignored operand bits among them. -/
def Obligations.WrittenWordsDecode : Prop :=
  decode 0b00000000#8 0b11111111#8 0b11111111#8 = .instr .nop ∧
  decode 0b00000001#8 0b00000000#8 0b00000000#8 = .instr .hlt ∧
  decode 0b10100000#8 0b00001001#8 0b11111010#8 = .instr (.add ⟨0b00001#5, 1⟩ ⟨0b11111#5, 2⟩) ∧
  decode 0b01100101#8 0b00000111#8 0b00000001#8 = .instr (.inc ⟨0#5, 7⟩) ∧
  decode 0b10101101#8 0b00000001#8 0b00000010#8 = .instr (.shr ⟨0#5, 1⟩ ⟨0#5, 2⟩) ∧
  decode 0b10100111#8 0b00000000#8 0b00000001#8 = .instr (.cmp ⟨0#5, 0⟩ ⟨0#5, 1⟩) ∧
  decode 0b10000010#8 0b11111001#8 0b11110010#8 = .instr (.ldi ⟨0b11111#5, 1⟩ 0b11110010#8) ∧
  decode 0b10000100#8 0b00000001#8 0b00000010#8 = .instr (.st ⟨0#5, 1⟩ ⟨0#5, 2⟩) ∧
  decode 0b01000111#8 0b00000011#8 0b00000000#8 = .instr (.prn ⟨0#5, 3⟩) ∧
  decode 0b01000101#8 0b00000100#8 0b00000000#8 = .instr (.push ⟨0#5, 4⟩) ∧
  decode 0b01010000#8 0b00000101#8 0b00000000#8 = .instr (.call ⟨0#5, 5⟩) ∧
  decode 0b00010001#8 0b00000000#8 0b00000000#8 = .instr .ret ∧
  decode 0b01011010#8 0b00000110#8 0b00000000#8 = .instr (.jge ⟨0#5, 6⟩)

/-- Decode and encode agree on every instruction, with every operand byte the encoding admits (R55, R57, R59, R60):
the encoding of an instruction, followed by any bytes, decodes to it; and whatever three bytes decode to is
encoded by the first 1 + N of them. -/
def Obligations.DecodeAndEncodeAgree : Prop :=
  (∀ (i : Instr) (rest tail : List Byte) (ir A B : Byte),
    encode i ++ rest = ir :: A :: B :: tail → decode ir A B = .instr i) ∧
  (∀ (ir A B : Byte) (i : Instr),
    decode ir A B = .instr i → encode i = [ir, A, B].take (1 + operandCount ir))

/-- R59, R61 (D2, D25): two encodings of one opcode that agree in the operand bits their format has, bits 2:0 of a
register operand and all of an immediate, mean the same in every state, whatever their other bits and whatever
bytes follow. -/
def Obligations.IgnoredBitsHaveNoEffect : Prop :=
  ∀ (ir A B A' B' : Byte) (i j : Instr) (s : State),
    decode ir A B = .instr i → decode ir A' B' = .instr j →
    (operandCount ir ≥ 1 → A.toNat % 8 = A'.toNat % 8) →
    (operandCount ir = 2 → if ir = 0x82#8 then B = B' else B.toNat % 8 = B'.toNat % 8) →
    exec i s = exec j s

/-- R59, R70: a decoded instruction is well-formed exactly when each of its register operand bytes is the canonical
one, below 8; an immediate, LDI's second byte, may be any byte. The hardware runs both kinds. -/
def Obligations.WellFormedMeansCanonicalOperandBytes : Prop :=
  ∀ (ir A B : Byte) (i : Instr), decode ir A B = .instr i →
    (i.wellFormed = true ↔
      (operandCount ir ≥ 1 → A.toNat < 8) ∧ (operandCount ir = 2 → ir ≠ 0x82#8 → B.toNat < 8))

/-! ### The ALU instructions -/

/-- R78, R79, R80: ADD, SUB and MUL write the sum, difference and product modulo 256. -/
def Obligations.AddSubMulWrapModulo256 : Prop :=
  EncodesRR 0xA0#8 .add ∧ ComputesRR .add (fun x y => (x + y) % 256) ∧
  EncodesRR 0xA1#8 .sub ∧ ComputesRR .sub (fun x y => (x + 256 - y) % 256) ∧
  EncodesRR 0xA2#8 .mul ∧ ComputesRR .mul (fun x y => (x * y) % 256)

/-- R83, R84: INC and DEC add and subtract 1 modulo 256. -/
def Obligations.IncDecWrapModulo256 : Prop :=
  EncodesR 0x65#8 .inc ∧ ComputesR .inc (fun x => (x + 1) % 256) ∧
  EncodesR 0x66#8 .dec ∧ ComputesR .dec (fun x => (x + 255) % 256)

/-- R81, R82, R177 (D6, D7): DIV and MOD write the unsigned quotient and remainder, and by zero raise DivideByZero
before any write. -/
def Obligations.DivModTruncateOrFault : Prop :=
  EncodesRR 0xA3#8 .div ∧ DividesOrFaults .div (fun x y => x / y) ∧
  EncodesRR 0xA4#8 .mod ∧ DividesOrFaults .mod (fun x y => x - y * (x / y))

/-- R91 to R94: AND, OR and XOR act bit by bit; NOT is 255 - x. -/
def Obligations.BitwiseOperationsActOnEightBits : Prop :=
  EncodesRR 0xA8#8 .and ∧ ComputesRR .and (fun x y => x &&& y) ∧
  EncodesRR 0xAA#8 .or ∧ ComputesRR .or (fun x y => x ||| y) ∧
  EncodesRR 0xAB#8 .xor ∧ ComputesRR .xor (fun x y => x ^^^ y) ∧
  EncodesR 0x69#8 .not ∧ ComputesR .not (fun x => 255 - x)

/-- R95, R96 (D9): the shifts are logical, by the whole value of x[b], and 0 from 8 on. -/
def Obligations.ShiftsAreLogicalAndUnmasked : Prop :=
  EncodesRR 0xAC#8 .shl ∧ ComputesRR .shl (fun x y => if y ≥ 8 then 0 else x * 2 ^ y % 256) ∧
  EncodesRR 0xAD#8 .shr ∧ ComputesRR .shr (fun x y => if y ≥ 8 then 0 else x / 2 ^ y)

/-- R97, R98 (D8): CMP writes E, L and G, all three, from the unsigned comparison of x[a] with x[b], exactly one of
them 1, and no register. -/
def Obligations.CmpWritesExactlyOneFlag : Prop :=
  EncodesRR 0xA7#8 .cmp ∧
  ∀ (a b : RegOperand) (s : State), ∃ t, exec (.cmp a b) s = .next t ∧
    (t.flags.E = true ↔ (readReg s a.index).toNat = (readReg s b.index).toNat) ∧
    (t.flags.L = true ↔ (readReg s a.index).toNat < (readReg s b.index).toNat) ∧
    (t.flags.G = true ↔ (readReg s a.index).toNat > (readReg s b.index).toNat) ∧
    t.flags.E.toNat + t.flags.L.toNat + t.flags.G.toNat = 1 ∧
    t.pc.toNat = (s.pc.toNat + 3) % 256 ∧
    KeepsRegs s t ∧ KeepsControl s t ∧ KeepsMem s t ∧ KeepsOut s t

/-- R77, R178 (D18): the ALU, handed a tag that is none of its 14, raises UnsupportedOperation, which writes RUN and
CAUSE and nothing else; with any of the 14 it does not, whatever the operands; and no step of the machine ever
sets that CAUSE. -/
def Obligations.OnlyAnUnrecognisedTagIsUnsupported : Prop :=
  (∀ (a b : RegOperand) (length : Byte) (s : State),
    useAlu .unrecognised a b length s = { s with run := .faulted, cause := some .unsupportedOperation }) ∧
  (∀ (o : AluOp) (x y : Byte), aluAnswer (.op o) x y ≠ .fault .unsupportedOperation) ∧
  (∀ s t : State, step s = .next t → t.cause = some .unsupportedOperation → s.cause = some .unsupportedOperation)

/-! ### Data movement, output, stack -/

/-- R125, R126: LDI writes the whole immediate byte; LD writes the byte of the cell whose address is the old x[b]. -/
def Obligations.LoadsWriteTheirRegister : Prop :=
  EncodesRI 0x82#8 .ldi ∧
  (∀ (a : RegOperand) (imm : Byte) (s : State), ∃ t, exec (.ldi a imm) s = .next t ∧
    readReg t a.index = imm ∧ t.pc.toNat = (s.pc.toNat + 3) % 256 ∧
    KeepsRegsBut [a.index] s t ∧ KeepsFlags s t ∧ KeepsControl s t ∧ KeepsMem s t ∧ KeepsOut s t) ∧
  EncodesRR 0x83#8 .ld ∧
  (∀ (a b : RegOperand) (s : State), ∃ t, exec (.ld a b) s = .next t ∧
    readReg t a.index = readMem s (readReg s b.index) ∧ t.pc.toNat = (s.pc.toNat + 3) % 256 ∧
    KeepsRegsBut [a.index] s t ∧ KeepsFlags s t ∧ KeepsControl s t ∧ KeepsMem s t ∧ KeepsOut s t)

/-- R127: ST writes x[b] to the one cell whose address is x[a], the first operand, and no register. -/
def Obligations.StoreWritesOneCell : Prop :=
  EncodesRR 0x84#8 .st ∧
  ∀ (a b : RegOperand) (s : State), ∃ t, exec (.st a b) s = .next t ∧
    readMem t (readReg s a.index) = readReg s b.index ∧
    KeepsMemBut (readReg s a.index) s t ∧
    t.pc.toNat = (s.pc.toNat + 3) % 256 ∧
    KeepsRegs s t ∧ KeepsFlags s t ∧ KeepsControl s t ∧ KeepsOut s t

/-- R136, R137: PRN and PRA each append one event with the raw register value. -/
def Obligations.PrintsAppendOneEvent : Prop :=
  EncodesR 0x47#8 .prn ∧ Emits .prn .prn ∧ EncodesR 0x48#8 .pra ∧ Emits .pra .pra

/-- R146, R147 (D15): PUSH decrements SP and writes the one cell at the new SP with the operand register as it is
after the decrement, so that `PUSH R7` pushes the decremented SP. -/
def Obligations.PushDecrementsThenStores : Prop :=
  EncodesR 0x45#8 .push ∧
  ∀ (a : RegOperand) (s : State), ∃ t, exec (.push a) s = .next t ∧
    (readReg t 7).toNat = ((readReg s 7).toNat + 255) % 256 ∧
    readMem t (readReg t 7) = (if a.index = 7 then readReg t 7 else readReg s a.index) ∧
    KeepsMemBut (pushAddr s) s t ∧ pushAddr s = readReg t 7 ∧
    t.pc.toNat = (s.pc.toNat + 2) % 256 ∧
    KeepsRegsBut [7] s t ∧ KeepsFlags s t ∧ KeepsControl s t ∧ KeepsOut s t

/-- R148, R147 (D15): POP loads the operand register from the cell at SP and then increments SP, so that `POP R7`
leaves the popped byte plus 1. -/
def Obligations.PopLoadsThenIncrements : Prop :=
  EncodesR 0x46#8 .pop ∧
  ∀ (a : RegOperand) (s : State), ∃ t, exec (.pop a) s = .next t ∧
    (a.index ≠ 7 → readReg t a.index = readMem s (readReg s 7) ∧
      (readReg t 7).toNat = ((readReg s 7).toNat + 1) % 256) ∧
    (a.index = 7 → (readReg t 7).toNat = ((readMem s (readReg s 7)).toNat + 1) % 256) ∧
    t.pc.toNat = (s.pc.toNat + 2) % 256 ∧
    KeepsRegsBut [a.index, 7] s t ∧ KeepsFlags s t ∧ KeepsControl s t ∧ KeepsMem s t ∧ KeepsOut s t

/-- R149: PUSH Ra, then POP Ra in any state that has the SP the PUSH left and the byte it pushed, restores x[a] and
SP, for R7 too; with POP Rc instead it copies x[a] to x[c], for a and c other than 7. -/
def Obligations.PushThenPopRoundTrips : Prop :=
  ∀ (a : RegOperand) (s : State), ∃ t, exec (.push a) s = .next t ∧
    ∀ m : State, readReg m 7 = readReg t 7 → readMem m (readReg t 7) = readMem t (readReg t 7) →
      (∃ u, exec (.pop a) m = .next u ∧ readReg u a.index = readReg s a.index ∧ readReg u 7 = readReg s 7) ∧
      (∀ c : RegOperand, c.index ≠ 7 → a.index ≠ 7 → ∃ u, exec (.pop c) m = .next u ∧
        readReg u c.index = readReg s a.index ∧ readReg u 7 = readReg s 7 ∧
        readMem u (pushAddr s) = readReg s a.index)

/-! ### Control flow -/

/-- R156, R157 (D15): CALL decrements SP, writes pc + 2 to the one cell at the new SP and jumps to the operand
register as it is after the decrement, so that `CALL R7` jumps to the cell of its return address. -/
def Obligations.CallPushesReturnAddress : Prop :=
  EncodesR 0x50#8 .call ∧
  ∀ (a : RegOperand) (s : State), ∃ t, exec (.call a) s = .next t ∧
    (readReg t 7).toNat = ((readReg s 7).toNat + 255) % 256 ∧
    (readMem t (readReg t 7)).toNat = (s.pc.toNat + 2) % 256 ∧
    KeepsMemBut (pushAddr s) s t ∧ pushAddr s = readReg t 7 ∧
    t.pc = (if a.index = 7 then readReg t 7 else readReg s a.index) ∧
    KeepsRegsBut [7] s t ∧ KeepsFlags s t ∧ KeepsControl s t ∧ KeepsOut s t

/-- R158: RET takes the pc from the cell at SP and increments SP, whatever pushed that byte. -/
def Obligations.RetPopsIntoPc : Prop :=
  EncodesZ 0x11#8 .ret ∧
  ∀ s : State, ∃ t, exec .ret s = .next t ∧
    t.pc = readMem s (readReg s 7) ∧
    (readReg t 7).toNat = ((readReg s 7).toNat + 1) % 256 ∧
    KeepsRegsBut [7] s t ∧ KeepsFlags s t ∧ KeepsControl s t ∧ KeepsMem s t ∧ KeepsOut s t

/-- R167: after a CALL at address c, a RET in any state that has the SP the CALL left and the byte it pushed goes
to c + 2 and restores the SP from before the CALL. -/
def Obligations.CallThenRetReturns : Prop :=
  ∀ (a : RegOperand) (s : State), ∃ t, exec (.call a) s = .next t ∧
    ∀ m : State, readReg m 7 = readReg t 7 → readMem m (readReg t 7) = readMem t (readReg t 7) →
      ∃ u, exec .ret m = .next u ∧ u.pc.toNat = (s.pc.toNat + 2) % 256 ∧ readReg u 7 = readReg s 7

/-- R159: JMP always goes to x[a] and changes nothing but the pc. -/
def Obligations.JmpGoesToRegister : Prop :=
  EncodesR 0x54#8 .jmp ∧
  ∀ (a : RegOperand) (s : State), ∃ t, exec (.jmp a) s = .next t ∧ t.pc = readReg s a.index ∧
    KeepsRegs s t ∧ KeepsFlags s t ∧ KeepsControl s t ∧ KeepsMem s t ∧ KeepsOut s t

/-- R160 to R165 (D5): the six conditional jumps, each on its own flag condition. -/
def Obligations.ConditionalJumpsTestTheirFlags : Prop :=
  EncodesR 0x55#8 .jeq ∧ JumpsWhen .jeq (fun f => f.E = true) ∧
  EncodesR 0x56#8 .jne ∧ JumpsWhen .jne (fun f => f.E = false) ∧
  EncodesR 0x57#8 .jgt ∧ JumpsWhen .jgt (fun f => f.G = true) ∧
  EncodesR 0x58#8 .jlt ∧ JumpsWhen .jlt (fun f => f.L = true) ∧
  EncodesR 0x5A#8 .jge ∧ JumpsWhen .jge (fun f => f.G = true ∨ f.E = true) ∧
  EncodesR 0x59#8 .jle ∧ JumpsWhen .jle (fun f => f.L = true ∨ f.E = true)

/-- R109 (D24), R110 (D3): HLT sets RUN to HALTED and changes nothing else, the pc included; NOP advances the pc by
1 and changes nothing else. -/
def Obligations.HltStopsAndNopMovesOn : Prop :=
  EncodesZ 0x01#8 .hlt ∧
  (∀ s : State, exec .hlt s = .next { s with run := .halted }) ∧
  EncodesZ 0x00#8 .nop ∧
  (∀ s : State, ∃ t, exec .nop s = .next t ∧ t.pc.toNat = (s.pc.toNat + 1) % 256 ∧
    KeepsRegs s t ∧ KeepsFlags s t ∧ KeepsControl s t ∧ KeepsMem s t ∧ KeepsOut s t)

/-! ### The step -/

/-- R105, R106, R111, R112 (D1, D4, D26): in HALTED and FAULTED a step changes nothing; in RUNNING it fetches M[pc],
M[pc + 1] and M[pc + 2], addresses modulo 256, into IR, A and B and is `exec` of the instruction they decode
to, with no other change around it; a byte that is no opcode raises IllegalInstruction, which writes RUN and
CAUSE and nothing else. -/
def Obligations.StepRunsTheDecodedInstruction : Prop :=
  (∀ s : State, s.run ≠ .running → step s = .next s) ∧
  (∀ (s : State) (i : Instr), s.run = .running →
    decode (readMem s s.pc) (readMem s (s.pc + 1#8)) (readMem s (s.pc + 2#8)) = .instr i →
    step s = exec i { s with
      ir := readMem s s.pc, opA := readMem s (s.pc + 1#8), opB := readMem s (s.pc + 2#8) }) ∧
  (∀ s : State, s.run = .running → opcodeAtPc s ∉ definedOpcodeBytes →
    step s = .next { s with
      ir := readMem s s.pc, opA := readMem s (s.pc + 1#8), opB := readMem s (s.pc + 2#8)
      run := .faulted, cause := some .illegalInstruction })

/-- R105, R179: every step from every state answers a next state; the machine never stops on an address or for want
of a meaning. -/
def Obligations.StepAlwaysAnswersNext : Prop :=
  ∀ s : State, ∃ t, step s = .next t

/-- R24, R106: RUN becomes HALTED exactly by HLT, and FAULTED exactly by an illegal opcode byte or by DIV or MOD
with a zero divisor, each fault with its own CAUSE; in all other cases it stays RUNNING and CAUSE stays. -/
def Obligations.RunStateChangesOnlyByHltAndFaults : Prop :=
  ∀ s t : State, s.run = .running → step s = .next t →
    (t.run = .halted ↔ opcodeAtPc s = 0x01#8) ∧
    (t.run = .faulted ↔ opcodeAtPc s ∉ definedOpcodeBytes ∨
      (opcodeAtPc s = 0xA3#8 ∨ opcodeAtPc s = 0xA4#8) ∧ readReg s (indexB s) = 0#8) ∧
    (t.run = .faulted → opcodeAtPc s ∉ definedOpcodeBytes → t.cause = some .illegalInstruction) ∧
    (t.run = .faulted → opcodeAtPc s ∈ definedOpcodeBytes → t.cause = some .divideByZero) ∧
    (t.run ≠ .faulted → t.cause = s.cause)

/-- R183, R184, R185 (D13, D14): a step that ends in FAULTED has written RUN and CAUSE and the fetch latches, and
nothing else: registers, pc, flags, memory and output are as before the step. -/
def Obligations.FaultsArePrecise : Prop :=
  ∀ s t : State, s.run = .running → step s = .next t → t.run = .faulted →
    t.cause ≠ none ∧
    t = { s with
      run := .faulted, cause := t.cause
      ir := readMem s s.pc, opA := readMem s (s.pc + 1#8), opB := readMem s (s.pc + 2#8) }

/-- R22, R23: a step changes the flags only when it runs a CMP, and after it exactly one of them is 1. -/
def Obligations.OnlyCmpWritesFlags : Prop :=
  ∀ s t : State, s.run = .running → step s = .next t →
    (opcodeAtPc s ≠ 0xA7#8 → t.flags = s.flags) ∧
    (opcodeAtPc s = 0xA7#8 → t.flags.E.toNat + t.flags.L.toNat + t.flags.G.toNat = 1)

/-- R16: which steps change which registers. A register changes only as x[a] of an instruction that writes x[a], or
as R7 in PUSH, POP, CALL and RET. -/
def Obligations.RegistersChangeOnlyAsListed : Prop :=
  ∀ (s t : State) (r : RegIdx), s.run = .running → step s = .next t → readReg t r ≠ readReg s r →
    (r = indexA s ∧ opcodeAtPc s ∈ [0xA0#8, 0xA1#8, 0xA2#8, 0xA3#8, 0xA4#8, 0xA8#8, 0xAA#8, 0xAB#8, 0xAC#8,
      0xAD#8, 0x65#8, 0x66#8, 0x69#8, 0x82#8, 0x83#8, 0x46#8]) ∨
    (r = 7 ∧ opcodeAtPc s ∈ [0x45#8, 0x46#8, 0x50#8, 0x11#8])

/-- R36: which steps write memory, and where. A cell changes only as M[x[a]] in ST, or as M[SP - 1] in PUSH and
CALL. -/
def Obligations.MemoryChangesOnlyAsListed : Prop :=
  ∀ (s t : State) (w : Addr), s.run = .running → step s = .next t → readMem t w ≠ readMem s w →
    (opcodeAtPc s = 0x84#8 ∧ w = readReg s (indexA s)) ∨
    ((opcodeAtPc s = 0x45#8 ∨ opcodeAtPc s = 0x50#8) ∧ w = readReg s 7 - 1#8)

/-- R19, R107 (D1, D3, D5, D15, D24): the pc after a step. A step that halts or faults keeps it; an opcode with bit
4 clear moves it by 1 + N, N being its bits 7:6; CALL and JMP put x[a] there (for `CALL R7` the decremented SP,
R157), RET the byte at the top of the stack, a conditional jump x[a] if its condition holds and pc + 2 if not. -/
def Obligations.PcMovesAsListed : Prop :=
  ∀ s t : State, s.run = .running → step s = .next t →
    (t.run ≠ .running → t.pc = s.pc) ∧
    (t.run = .running → pcControl (opcodeAtPc s) = false →
      t.pc.toNat = (s.pc.toNat + 1 + operandCount (opcodeAtPc s)) % 256) ∧
    (opcodeAtPc s = 0x50#8 → t.pc = if indexA s = 7 then readReg s 7 - 1#8 else readReg s (indexA s)) ∧
    (opcodeAtPc s = 0x11#8 → t.pc = readMem s (readReg s 7)) ∧
    (opcodeAtPc s = 0x54#8 → t.pc = readReg s (indexA s)) ∧
    (opcodeAtPc s = 0x55#8 → t.pc = if s.flags.E then readReg s (indexA s) else s.pc + 2#8) ∧
    (opcodeAtPc s = 0x56#8 → t.pc = if s.flags.E then s.pc + 2#8 else readReg s (indexA s)) ∧
    (opcodeAtPc s = 0x57#8 → t.pc = if s.flags.G then readReg s (indexA s) else s.pc + 2#8) ∧
    (opcodeAtPc s = 0x58#8 → t.pc = if s.flags.L then readReg s (indexA s) else s.pc + 2#8) ∧
    (opcodeAtPc s = 0x59#8 → t.pc = if s.flags.L || s.flags.E then readReg s (indexA s) else s.pc + 2#8) ∧
    (opcodeAtPc s = 0x5A#8 → t.pc = if s.flags.G || s.flags.E then readReg s (indexA s) else s.pc + 2#8)

/-- R29, R135: the core appends to the output stream only in PRN and PRA, one event each, and never reads it: with
any other stream in its place the step does the same and appends the same. -/
def Obligations.OutputIsAppendedAndNeverRead : Prop :=
  ∀ s t : State, s.run = .running → step s = .next t →
    ∃ events : List OutEvent, t.out = s.out ++ events ∧
      (opcodeAtPc s = 0x47#8 → events = [{ kind := .prn, value := readReg s (indexA s) }]) ∧
      (opcodeAtPc s = 0x48#8 → events = [{ kind := .pra, value := readReg s (indexA s) }]) ∧
      (opcodeAtPc s ≠ 0x47#8 → opcodeAtPc s ≠ 0x48#8 → events = []) ∧
      ∀ other : List OutEvent, step { s with out := other } = .next { t with out := other ++ events }

/-- R27, R206: the latches IR, A and B carry nothing from one step to the next, so their value at reset, which is
assumption 1's choice, cannot be told. -/
def Obligations.LatchesCarryNothingBetweenSteps : Prop :=
  ∀ (s : State) (ir A B : Byte), s.run = .running → step { s with ir := ir, opA := A, opB := B } = step s

/-- R48, R46: a store into the next instruction's opcode byte is what the next step fetches, so that storing 0x01
there halts the machine. -/
def Obligations.StoreIsSeenByTheNextFetch : Prop :=
  ∀ s t : State, s.run = .running → opcodeAtPc s = 0x84#8 → readReg s (indexA s) = s.pc + 3#8 →
    step s = .next t →
    opcodeAtPc t = readReg s (indexB s) ∧
    (readReg s (indexB s) = 0x01#8 → ∃ u, step t = .next u ∧ u.run = .halted ∧ u.pc = t.pc)

/-- The invariant `State.Inv` is kept by every step: memory stays canonical, CAUSE is set exactly in FAULTED (R24,
R25), CAUSE is never UnsupportedOperation (R178), and at most one flag is set (R23). -/
def Obligations.StepKeepsTheInvariant : Prop :=
  ∀ s t : State, s.Inv → step s = .next t → t.Inv

/-- `State.Inv` holds after reset and at every launch, and the reset input gives it from any state whose memory is
canonical. -/
def Obligations.ResetAndLaunchHaveTheInvariant : Prop :=
  State.reset.Inv ∧ (∀ initMem : Vector Byte 256, (launch initMem).Inv) ∧
  (∀ s : State, Memory.wf s.mem = true → (applyReset s).Inv)

/-! ### Runs -/

/-- R106, R113: a run that is over stays where it is, however many steps are asked for. -/
def Obligations.FinishedRunsStayPut : Prop :=
  ∀ (n : Nat) (s : State), s.over → core.run n s = .next s

/-- R110, R214: with every cell 0x00 the machine never stops: it executes NOPs for ever, from any pc and registers,
wrapping from 0xFF to 0x00. -/
def Obligations.ZeroedMemoryNeverStops : Prop :=
  ∀ (n : Nat) (s : State), s.run = .running → (∀ a, readMem s a = 0x00#8) →
    ∃ t, core.run n s = .next t ∧ t.run = .running ∧ t.pc.toNat = (s.pc.toNat + n) % 256 ∧
      KeepsRegs s t ∧ KeepsFlags s t ∧ KeepsMem s t ∧ KeepsOut s t

/-- R159, R214: a JMP to its own address is a hang: the machine stays RUNNING at that pc for ever and nothing else
changes but the fetch latches. -/
def Obligations.JumpToItselfHangs : Prop :=
  ∀ (n : Nat) (s : State), s.run = .running → opcodeAtPc s = 0x54#8 → readReg s (indexA s) = s.pc →
    ∃ t, core.run n s = .next t ∧ t.run = .running ∧ t.pc = s.pc ∧
      KeepsRegs s t ∧ KeepsFlags s t ∧ KeepsMem s t ∧ KeepsOut s t

/-- The host's entry: after `withFetchWord` the next step runs exactly the instruction of that word, on a state that
differs from the given one only in the bytes at the pc, the latches and RUN. -/
def Obligations.WithFetchWordRunsTheWord : Prop :=
  ∀ (s : State) (nbits w : Nat) (i : Instr), decodeTableWord nbits w = some i →
    ∃ u, step (s.withFetchWord nbits w) = exec i u ∧
      u.regs = s.regs ∧ u.pc = s.pc ∧ u.flags = s.flags ∧ u.cause = s.cause ∧ u.out = s.out ∧
      u.run = .running ∧
      (∀ a, a ≠ s.pc → a ≠ s.pc + 1#8 → a ≠ s.pc + 2#8 → readMem u a = readMem s a)

/-! ### Observation -/

/-- R24, R175 (D13), R31 (D22): the codes of RUN and CAUSE, and the flags as the byte 0b00000LGE. -/
def Obligations.ObserverCodes : Prop :=
  RunState.code .running = 0#2 ∧ RunState.code .halted = 1#2 ∧ RunState.code .faulted = 2#2 ∧
  causeCode none = 0#2 ∧ causeCode (some .illegalInstruction) = 1#2 ∧
  causeCode (some .divideByZero) = 2#2 ∧ causeCode (some .unsupportedOperation) = 3#2 ∧
  (∀ f : Flags, f.toByte.getLsbD 0 = f.E ∧ f.toByte.getLsbD 1 = f.G ∧ f.toByte.getLsbD 2 = f.L ∧
    f.toByte.toNat < 8)

/-- R138: the text of (PRN, v) is the decimal numeral of v, 1 to 3 digits without sign or leading zero, and one
newline; the text of (PRA, v) is the one character of code point v. That a text is a list of code points, a
digit d being 48 + d and the newline 10, is the model's choice, log entry 10. -/
def Obligations.EventTextIsAsRecorded : Prop :=
  ∀ v : Byte, ∃ digits : List Nat,
    OutEvent.text { kind := .prn, value := v } = digits.map (48 + ·) ++ [10] ∧
    digits.foldl (fun n d => 10 * n + d) 0 = v.toNat ∧ (∀ d ∈ digits, d < 10) ∧
    1 ≤ digits.length ∧ digits.length ≤ 3 ∧ (digits.head? = some 0 → digits = [0]) ∧
    OutEvent.text { kind := .pra, value := v } = [v.toNat]
end

