-- ==== Sys2Proof/Laws/Decode.lean ====
section
/-! SUPPORT. The laws of the opcode map, the operand bytes and the decoder (spec/30_encoding.md). -/

namespace Sys2Proof

/-- No two instructions share an opcode byte (`30_encoding.md` R63(a)). -/
theorem Op.byte_injective : Function.Injective Op.byte := by
  intro o p h
  have : Op.ofByte? o.byte = some o := by cases o <;> rfl
  have q : Op.ofByte? p.byte = some p := by cases p <;> rfl
  rw [h, q] at this
  exact (Option.some.inj this).symm

@[simp] theorem Op.ofByte?_byte (o : Op) : Op.ofByte? o.byte = some o := by
  cases o <;> rfl

/-- The opcode map read backwards is the opcode map. -/
theorem Op.ofByte?_eq_some {b : Byte} {o : Op} : Op.ofByte? b = some o ↔ b = o.byte := by
  constructor
  · intro h
    exact (beq_iff_eq.mp (List.find?_some (p := fun o : Op => o.byte == b) h)).symm
  · rintro rfl
    exact Op.ofByte?_byte o

/-- A byte that is no opcode's has no opcode. -/
theorem Op.ofByte?_eq_none {b : Byte} : Op.ofByte? b = none ↔ ∀ o : Op, b ≠ o.byte := by
  rw [Option.eq_none_iff_forall_ne_some]
  exact forall_congr' fun o => not_congr Op.ofByte?_eq_some

/-- The index of a register operand is the byte modulo 8 (`30_encoding.md` R59). -/
@[simp] theorem RegOperand.ofByte_index_val (A : Byte) : (RegOperand.ofByte A).index.val = A.toNat % 8 := by
  simp [RegOperand.ofByte]

@[simp] theorem RegOperand.ofByte_toByte (r : RegOperand) : RegOperand.ofByte r.toByte = r := by
  obtain ⟨p, i⟩ := r
  revert p i
  decide

@[simp] theorem RegOperand.toByte_ofByte (A : Byte) : (RegOperand.ofByte A).toByte = A := by
  revert A
  decide

/-- What the decoder answers on the byte of an opcode. -/
@[simp] theorem decode_byte (o : Op) (A B : Byte) : decode o.byte A B = .instr (o.instr A B) := by
  simp [decode]

/-- The decoder answers an instruction exactly on the byte of its opcode. -/
theorem decode_eq_instr {ir A B : Byte} {i : Instr} :
    decode ir A B = .instr i ↔ ∃ o : Op, ir = o.byte ∧ o.instr A B = i := by
  constructor
  · intro h
    cases ho : Op.ofByte? ir with
    | none => simp [decode, ho] at h
    | some o =>
      simp only [decode, ho, Decoded.instr.injEq] at h
      exact ⟨o, Op.ofByte?_eq_some.mp ho, h⟩
  · rintro ⟨o, rfl, rfl⟩
    exact decode_byte o A B

/-- The decoder rejects exactly the bytes that are no opcode's (`30_encoding.md` R65). -/
theorem decode_illegal_iff {ir A B : Byte} :
    (∃ why, decode ir A B = .illegal why) ↔ ∀ o : Op, ir ≠ o.byte := by
  rw [← Op.ofByte?_eq_none]
  cases ho : Op.ofByte? ir <;> simp [decode, ho]

/-- The opcode of what an opcode and two bytes decode to is that opcode. -/
@[simp] theorem Op.op_instr (o : Op) (A B : Byte) : (o.instr A B).op = o := by
  cases o <;> rfl

end Sys2Proof
end

