-- ==== Sys2Proof/Laws/State.lean ====
section
/-! SUPPORT. What each update of the state leaves in each field, one lemma per field and update, and the same
for the two reads `readReg` and `readMem`. No later proof unfolds a record update. -/

namespace Sys2Proof.Machine

/-! ### `writeReg` -/

@[simp] theorem writeReg_regs (i : RegIdx) (v : Byte) (s : State) : (writeReg i v s).regs = s.regs.set i.val v := rfl
@[simp] theorem writeReg_pc (i : RegIdx) (v : Byte) (s : State) : (writeReg i v s).pc = s.pc := rfl
@[simp] theorem writeReg_flags (i : RegIdx) (v : Byte) (s : State) : (writeReg i v s).flags = s.flags := rfl
@[simp] theorem writeReg_run (i : RegIdx) (v : Byte) (s : State) : (writeReg i v s).run = s.run := rfl
@[simp] theorem writeReg_cause (i : RegIdx) (v : Byte) (s : State) : (writeReg i v s).cause = s.cause := rfl
@[simp] theorem writeReg_ir (i : RegIdx) (v : Byte) (s : State) : (writeReg i v s).ir = s.ir := rfl
@[simp] theorem writeReg_opA (i : RegIdx) (v : Byte) (s : State) : (writeReg i v s).opA = s.opA := rfl
@[simp] theorem writeReg_opB (i : RegIdx) (v : Byte) (s : State) : (writeReg i v s).opB = s.opB := rfl
@[simp] theorem writeReg_mem (i : RegIdx) (v : Byte) (s : State) : (writeReg i v s).mem = s.mem := rfl
@[simp] theorem writeReg_out (i : RegIdx) (v : Byte) (s : State) : (writeReg i v s).out = s.out := rfl
@[simp] theorem readMem_writeReg (i : RegIdx) (v : Byte) (s : State) (b : Addr) : readMem (writeReg i v s) b = readMem s b := rfl

/-! ### `writeMem` -/

@[simp] theorem writeMem_regs (a : Addr) (v : Byte) (s : State) : (writeMem a v s).regs = s.regs := rfl
@[simp] theorem writeMem_pc (a : Addr) (v : Byte) (s : State) : (writeMem a v s).pc = s.pc := rfl
@[simp] theorem writeMem_flags (a : Addr) (v : Byte) (s : State) : (writeMem a v s).flags = s.flags := rfl
@[simp] theorem writeMem_run (a : Addr) (v : Byte) (s : State) : (writeMem a v s).run = s.run := rfl
@[simp] theorem writeMem_cause (a : Addr) (v : Byte) (s : State) : (writeMem a v s).cause = s.cause := rfl
@[simp] theorem writeMem_ir (a : Addr) (v : Byte) (s : State) : (writeMem a v s).ir = s.ir := rfl
@[simp] theorem writeMem_opA (a : Addr) (v : Byte) (s : State) : (writeMem a v s).opA = s.opA := rfl
@[simp] theorem writeMem_opB (a : Addr) (v : Byte) (s : State) : (writeMem a v s).opB = s.opB := rfl
@[simp] theorem writeMem_mem (a : Addr) (v : Byte) (s : State) : (writeMem a v s).mem = Memory.write s.mem a.toNat v := rfl
@[simp] theorem writeMem_out (a : Addr) (v : Byte) (s : State) : (writeMem a v s).out = s.out := rfl
@[simp] theorem readReg_writeMem (a : Addr) (v : Byte) (s : State) (r : RegIdx) : readReg (writeMem a v s) r = readReg s r := rfl

/-! ### `setPc` -/

@[simp] theorem setPc_regs (t : Addr) (s : State) : (setPc t s).regs = s.regs := rfl
@[simp] theorem setPc_pc (t : Addr) (s : State) : (setPc t s).pc = t := rfl
@[simp] theorem setPc_flags (t : Addr) (s : State) : (setPc t s).flags = s.flags := rfl
@[simp] theorem setPc_run (t : Addr) (s : State) : (setPc t s).run = s.run := rfl
@[simp] theorem setPc_cause (t : Addr) (s : State) : (setPc t s).cause = s.cause := rfl
@[simp] theorem setPc_ir (t : Addr) (s : State) : (setPc t s).ir = s.ir := rfl
@[simp] theorem setPc_opA (t : Addr) (s : State) : (setPc t s).opA = s.opA := rfl
@[simp] theorem setPc_opB (t : Addr) (s : State) : (setPc t s).opB = s.opB := rfl
@[simp] theorem setPc_mem (t : Addr) (s : State) : (setPc t s).mem = s.mem := rfl
@[simp] theorem setPc_out (t : Addr) (s : State) : (setPc t s).out = s.out := rfl
@[simp] theorem readReg_setPc (t : Addr) (s : State) (r : RegIdx) : readReg (setPc t s) r = readReg s r := rfl
@[simp] theorem readMem_setPc (t : Addr) (s : State) (b : Addr) : readMem (setPc t s) b = readMem s b := rfl

/-! ### `advance` -/

@[simp] theorem advance_regs (n : Byte) (s : State) : (advance n s).regs = s.regs := rfl
@[simp] theorem advance_pc (n : Byte) (s : State) : (advance n s).pc = s.pc + n := rfl
@[simp] theorem advance_flags (n : Byte) (s : State) : (advance n s).flags = s.flags := rfl
@[simp] theorem advance_run (n : Byte) (s : State) : (advance n s).run = s.run := rfl
@[simp] theorem advance_cause (n : Byte) (s : State) : (advance n s).cause = s.cause := rfl
@[simp] theorem advance_ir (n : Byte) (s : State) : (advance n s).ir = s.ir := rfl
@[simp] theorem advance_opA (n : Byte) (s : State) : (advance n s).opA = s.opA := rfl
@[simp] theorem advance_opB (n : Byte) (s : State) : (advance n s).opB = s.opB := rfl
@[simp] theorem advance_mem (n : Byte) (s : State) : (advance n s).mem = s.mem := rfl
@[simp] theorem advance_out (n : Byte) (s : State) : (advance n s).out = s.out := rfl
@[simp] theorem readReg_advance (n : Byte) (s : State) (r : RegIdx) : readReg (advance n s) r = readReg s r := rfl
@[simp] theorem readMem_advance (n : Byte) (s : State) (b : Addr) : readMem (advance n s) b = readMem s b := rfl

/-! ### `setFlags` -/

@[simp] theorem setFlags_regs (f : Flags) (s : State) : (setFlags f s).regs = s.regs := rfl
@[simp] theorem setFlags_pc (f : Flags) (s : State) : (setFlags f s).pc = s.pc := rfl
@[simp] theorem setFlags_flags (f : Flags) (s : State) : (setFlags f s).flags = f := rfl
@[simp] theorem setFlags_run (f : Flags) (s : State) : (setFlags f s).run = s.run := rfl
@[simp] theorem setFlags_cause (f : Flags) (s : State) : (setFlags f s).cause = s.cause := rfl
@[simp] theorem setFlags_ir (f : Flags) (s : State) : (setFlags f s).ir = s.ir := rfl
@[simp] theorem setFlags_opA (f : Flags) (s : State) : (setFlags f s).opA = s.opA := rfl
@[simp] theorem setFlags_opB (f : Flags) (s : State) : (setFlags f s).opB = s.opB := rfl
@[simp] theorem setFlags_mem (f : Flags) (s : State) : (setFlags f s).mem = s.mem := rfl
@[simp] theorem setFlags_out (f : Flags) (s : State) : (setFlags f s).out = s.out := rfl
@[simp] theorem readReg_setFlags (f : Flags) (s : State) (r : RegIdx) : readReg (setFlags f s) r = readReg s r := rfl
@[simp] theorem readMem_setFlags (f : Flags) (s : State) (b : Addr) : readMem (setFlags f s) b = readMem s b := rfl

/-! ### `halt` -/

@[simp] theorem halt_regs (s : State) : (halt s).regs = s.regs := rfl
@[simp] theorem halt_pc (s : State) : (halt s).pc = s.pc := rfl
@[simp] theorem halt_flags (s : State) : (halt s).flags = s.flags := rfl
@[simp] theorem halt_run (s : State) : (halt s).run = .halted := rfl
@[simp] theorem halt_cause (s : State) : (halt s).cause = s.cause := rfl
@[simp] theorem halt_ir (s : State) : (halt s).ir = s.ir := rfl
@[simp] theorem halt_opA (s : State) : (halt s).opA = s.opA := rfl
@[simp] theorem halt_opB (s : State) : (halt s).opB = s.opB := rfl
@[simp] theorem halt_mem (s : State) : (halt s).mem = s.mem := rfl
@[simp] theorem halt_out (s : State) : (halt s).out = s.out := rfl
@[simp] theorem readReg_halt (s : State) (r : RegIdx) : readReg (halt s) r = readReg s r := rfl
@[simp] theorem readMem_halt (s : State) (b : Addr) : readMem (halt s) b = readMem s b := rfl

/-! ### `emit` -/

@[simp] theorem emit_regs (k : OutKind) (v : Byte) (s : State) : (emit k v s).regs = s.regs := rfl
@[simp] theorem emit_pc (k : OutKind) (v : Byte) (s : State) : (emit k v s).pc = s.pc := rfl
@[simp] theorem emit_flags (k : OutKind) (v : Byte) (s : State) : (emit k v s).flags = s.flags := rfl
@[simp] theorem emit_run (k : OutKind) (v : Byte) (s : State) : (emit k v s).run = s.run := rfl
@[simp] theorem emit_cause (k : OutKind) (v : Byte) (s : State) : (emit k v s).cause = s.cause := rfl
@[simp] theorem emit_ir (k : OutKind) (v : Byte) (s : State) : (emit k v s).ir = s.ir := rfl
@[simp] theorem emit_opA (k : OutKind) (v : Byte) (s : State) : (emit k v s).opA = s.opA := rfl
@[simp] theorem emit_opB (k : OutKind) (v : Byte) (s : State) : (emit k v s).opB = s.opB := rfl
@[simp] theorem emit_mem (k : OutKind) (v : Byte) (s : State) : (emit k v s).mem = s.mem := rfl
@[simp] theorem emit_out (k : OutKind) (v : Byte) (s : State) : (emit k v s).out = s.out ++ [⟨k, v⟩] := rfl
@[simp] theorem readReg_emit (k : OutKind) (v : Byte) (s : State) (r : RegIdx) : readReg (emit k v s) r = readReg s r := rfl
@[simp] theorem readMem_emit (k : OutKind) (v : Byte) (s : State) (b : Addr) : readMem (emit k v s) b = readMem s b := rfl

/-! ### `raiseFault` -/

@[simp] theorem raiseFault_regs (f : FaultKind) (s : State) : (raiseFault f s).regs = s.regs := rfl
@[simp] theorem raiseFault_pc (f : FaultKind) (s : State) : (raiseFault f s).pc = s.pc := rfl
@[simp] theorem raiseFault_flags (f : FaultKind) (s : State) : (raiseFault f s).flags = s.flags := rfl
@[simp] theorem raiseFault_run (f : FaultKind) (s : State) : (raiseFault f s).run = .faulted := rfl
@[simp] theorem raiseFault_cause (f : FaultKind) (s : State) : (raiseFault f s).cause = some f := rfl
@[simp] theorem raiseFault_ir (f : FaultKind) (s : State) : (raiseFault f s).ir = s.ir := rfl
@[simp] theorem raiseFault_opA (f : FaultKind) (s : State) : (raiseFault f s).opA = s.opA := rfl
@[simp] theorem raiseFault_opB (f : FaultKind) (s : State) : (raiseFault f s).opB = s.opB := rfl
@[simp] theorem raiseFault_mem (f : FaultKind) (s : State) : (raiseFault f s).mem = s.mem := rfl
@[simp] theorem raiseFault_out (f : FaultKind) (s : State) : (raiseFault f s).out = s.out := rfl
@[simp] theorem readReg_raiseFault (f : FaultKind) (s : State) (r : RegIdx) : readReg (raiseFault f s) r = readReg s r := rfl
@[simp] theorem readMem_raiseFault (f : FaultKind) (s : State) (b : Addr) : readMem (raiseFault f s) b = readMem s b := rfl

/-! ### `fetch` -/

@[simp] theorem fetch_regs (s : State) : (fetch s).regs = s.regs := rfl
@[simp] theorem fetch_pc (s : State) : (fetch s).pc = s.pc := rfl
@[simp] theorem fetch_flags (s : State) : (fetch s).flags = s.flags := rfl
@[simp] theorem fetch_run (s : State) : (fetch s).run = s.run := rfl
@[simp] theorem fetch_cause (s : State) : (fetch s).cause = s.cause := rfl
@[simp] theorem fetch_ir (s : State) : (fetch s).ir = readMem s s.pc := rfl
@[simp] theorem fetch_opA (s : State) : (fetch s).opA = readMem s (s.pc + 1#8) := rfl
@[simp] theorem fetch_opB (s : State) : (fetch s).opB = readMem s (s.pc + 2#8) := rfl
@[simp] theorem fetch_mem (s : State) : (fetch s).mem = s.mem := rfl
@[simp] theorem fetch_out (s : State) : (fetch s).out = s.out := rfl
@[simp] theorem readReg_fetch (s : State) (r : RegIdx) : readReg (fetch s) r = readReg s r := rfl
@[simp] theorem readMem_fetch (s : State) (b : Addr) : readMem (fetch s) b = readMem s b := rfl

/-! ### `placeAtPc` -/

@[simp] theorem placeAtPc_regs (ir A B : Byte) (s : State) : (placeAtPc ir A B s).regs = s.regs := rfl
@[simp] theorem placeAtPc_pc (ir A B : Byte) (s : State) : (placeAtPc ir A B s).pc = s.pc := rfl
@[simp] theorem placeAtPc_flags (ir A B : Byte) (s : State) : (placeAtPc ir A B s).flags = s.flags := rfl
@[simp] theorem placeAtPc_run (ir A B : Byte) (s : State) : (placeAtPc ir A B s).run = .running := rfl
@[simp] theorem placeAtPc_cause (ir A B : Byte) (s : State) : (placeAtPc ir A B s).cause = s.cause := rfl
@[simp] theorem placeAtPc_ir (ir A B : Byte) (s : State) : (placeAtPc ir A B s).ir = s.ir := rfl
@[simp] theorem placeAtPc_opA (ir A B : Byte) (s : State) : (placeAtPc ir A B s).opA = s.opA := rfl
@[simp] theorem placeAtPc_opB (ir A B : Byte) (s : State) : (placeAtPc ir A B s).opB = s.opB := rfl
@[simp] theorem placeAtPc_mem (ir A B : Byte) (s : State) : (placeAtPc ir A B s).mem = Memory.write (Memory.write (Memory.write s.mem s.pc.toNat ir) (s.pc + 1#8).toNat A) (s.pc + 2#8).toNat B := rfl
@[simp] theorem placeAtPc_out (ir A B : Byte) (s : State) : (placeAtPc ir A B s).out = s.out := rfl
@[simp] theorem readReg_placeAtPc (ir A B : Byte) (s : State) (r : RegIdx) : readReg (placeAtPc ir A B s) r = readReg s r := rfl

/-! ### `applyReset` -/

@[simp] theorem applyReset_regs (s : State) : (applyReset s).regs = State.reset.regs := rfl
@[simp] theorem applyReset_pc (s : State) : (applyReset s).pc = State.reset.pc := rfl
@[simp] theorem applyReset_flags (s : State) : (applyReset s).flags = State.reset.flags := rfl
@[simp] theorem applyReset_run (s : State) : (applyReset s).run = State.reset.run := rfl
@[simp] theorem applyReset_cause (s : State) : (applyReset s).cause = State.reset.cause := rfl
@[simp] theorem applyReset_ir (s : State) : (applyReset s).ir = State.reset.ir := rfl
@[simp] theorem applyReset_opA (s : State) : (applyReset s).opA = State.reset.opA := rfl
@[simp] theorem applyReset_opB (s : State) : (applyReset s).opB = State.reset.opB := rfl
@[simp] theorem applyReset_mem (s : State) : (applyReset s).mem = s.mem := rfl
@[simp] theorem applyReset_out (s : State) : (applyReset s).out = s.out := rfl
@[simp] theorem readMem_applyReset (s : State) (b : Addr) : readMem (applyReset s) b = readMem s b := rfl

/-! ### Reading back what was written -/

@[simp] theorem readReg_writeReg_same (i : RegIdx) (v : Byte) (s : State) :
    readReg (writeReg i v s) i = v := by
  simp [readReg]

theorem readReg_writeReg_of_ne {i r : RegIdx} (h : r ≠ i) (v : Byte) (s : State) :
    readReg (writeReg i v s) r = readReg s r := by
  have : i.val ≠ r.val := fun e => h (Fin.ext e.symm)
  simp [readReg, Vector.getElem_set_ne, this]

theorem readReg_writeReg (i r : RegIdx) (v : Byte) (s : State) :
    readReg (writeReg i v s) r = if r = i then v else readReg s r := by
  by_cases h : r = i
  · simp [h]
  · simp [h, readReg_writeReg_of_ne h]

/-- Two states whose registers all read alike have the same register file. -/
theorem regs_ext {s t : State} (h : ∀ r, readReg t r = readReg s r) : t.regs = s.regs := by
  ext i hi
  exact congrArg (fun v : Byte => v[_]) (h ⟨i, hi⟩)

end Sys2Proof.Machine
end

