-- ==== Sys2Proof/Laws/Memory.lean ====
section
/-! SUPPORT. The laws of memory (spec/20_memory.md R35): a read after a write, the canonical form, and the memory
of an image. -/

namespace Sys2Proof.Machine

theorem Memory.read_erase (m : Memory) (a b : Nat) :
    (m.erase a).read b = if b = a then unlistedByte else m.read b := by
  induction m with
  | nil => simp [Memory.erase, Memory.read]
  | cons c rest ih =>
    obtain ⟨k, w⟩ := c
    by_cases hk : k = a
    · subst hk
      simp only [Memory.erase, Memory.read, if_true, ih]
      by_cases hb : b = k
      · simp [hb]
      · simp [hb, Ne.symm hb]
    · simp only [Memory.erase, Memory.read, if_neg hk, ih]
      by_cases hb : k = b
      · subst hb; simp [hk]
      · simp [hb]

theorem Memory.read_insert_of_ne (m : Memory) (a b : Nat) (v : Byte) (h : b ≠ a) :
    (m.insert a v).read b = m.read b := by
  induction m with
  | nil => simp [Memory.insert, Memory.read, Ne.symm h]
  | cons c rest ih =>
    obtain ⟨k, w⟩ := c
    by_cases hk : a < k
    · simp [Memory.insert, Memory.read, hk, Ne.symm h]
    · simp [Memory.insert, Memory.read, hk, ih]

theorem Memory.read_insert_erase (m : Memory) (a : Nat) (v : Byte) :
    ((m.erase a).insert a v).read a = v := by
  induction m with
  | nil => simp [Memory.erase, Memory.insert, Memory.read]
  | cons c rest ih =>
    obtain ⟨k, w⟩ := c
    by_cases hk : k = a
    · simpa [Memory.erase, hk] using ih
    · by_cases hlt : a < k
      · simp [Memory.erase, hk, Memory.insert, hlt, Memory.read]
      · simp [Memory.erase, hk, Memory.insert, hlt, Memory.read, ih]

/-- A read after a write gives the value written at the address written, and every other cell as it was. -/
theorem Memory.read_write (m : Memory) (a b : Nat) (v : Byte) :
    (m.write a v).read b = if b = a then v else m.read b := by
  by_cases hv : v = unlistedByte
  · simp [Memory.write, hv, Memory.read_erase]
  · by_cases hb : b = a
    · simp [Memory.write, hv, hb, Memory.read_insert_erase]
    · simp [Memory.write, hv, hb, Memory.read_insert_of_ne, Memory.read_erase]

/-! ### The canonical form -/

theorem Memory.wfFrom_cons {lo k : Nat} {v : Byte} {rest : Memory} :
    Memory.wfFrom lo ((k, v) :: rest) = true ↔
      lo ≤ k ∧ k < Config.memSize ∧ v ≠ unlistedByte ∧ Memory.wfFrom (k + 1) rest = true := by
  simp [Memory.wfFrom, and_assoc]

theorem Memory.wfFrom_mono {lo lo' : Nat} {m : Memory} (h : lo ≤ lo') (hm : Memory.wfFrom lo' m = true) :
    Memory.wfFrom lo m = true := by
  cases m with
  | nil => rfl
  | cons c rest =>
    obtain ⟨k, v⟩ := c
    rw [Memory.wfFrom_cons] at hm ⊢
    exact ⟨h.trans hm.1, hm.2⟩

theorem Memory.wfFrom_erase {lo : Nat} {m : Memory} (a : Nat) (hm : Memory.wfFrom lo m = true) :
    Memory.wfFrom lo (m.erase a) = true := by
  induction m generalizing lo with
  | nil => rfl
  | cons c rest ih =>
    obtain ⟨k, v⟩ := c
    rw [Memory.wfFrom_cons] at hm
    by_cases hk : k = a
    · simpa [Memory.erase, hk] using ih (Memory.wfFrom_mono (by omega) hm.2.2.2)
    · simpa [Memory.erase, hk, Memory.wfFrom_cons] using ⟨hm.1, hm.2.1, hm.2.2.1, ih hm.2.2.2⟩

theorem Memory.wfFrom_insert_erase {lo : Nat} {m : Memory} {a : Nat} {v : Byte} (hlo : lo ≤ a)
    (ha : a < Config.memSize) (hv : v ≠ unlistedByte) (hm : Memory.wfFrom lo m = true) :
    Memory.wfFrom lo ((m.erase a).insert a v) = true := by
  induction m generalizing lo with
  | nil => simp [Memory.erase, Memory.insert, Memory.wfFrom, hlo, ha, hv]
  | cons c rest ih =>
    obtain ⟨k, w⟩ := c
    rw [Memory.wfFrom_cons] at hm
    by_cases hk : k = a
    · simpa [Memory.erase, hk] using ih hlo (Memory.wfFrom_mono (by omega) hm.2.2.2)
    · by_cases hlt : a < k
      · have : Memory.wfFrom (k + 1) (Memory.erase rest a) = true := Memory.wfFrom_erase a hm.2.2.2
        simp only [Memory.erase, if_neg hk, Memory.insert, if_pos hlt, Memory.wfFrom_cons]
        exact ⟨hlo, ha, hv, hlt, hm.2.1, hm.2.2.1, this⟩
      · simp only [Memory.erase, if_neg hk, Memory.insert, if_neg hlt, Memory.wfFrom_cons]
        exact ⟨hm.1, hm.2.1, hm.2.2.1, ih (by omega) hm.2.2.2⟩

/-- A write keeps the canonical form. -/
theorem Memory.wf_write {m : Memory} {a : Nat} (v : Byte) (ha : a < Config.memSize) (hm : Memory.wf m = true) :
    Memory.wf (m.write a v) = true := by
  by_cases hv : v = unlistedByte
  · simpa [Memory.wf, Memory.write, hv] using Memory.wfFrom_erase a hm
  · simpa [Memory.wf, Memory.write, hv] using Memory.wfFrom_insert_erase (Nat.zero_le a) ha hv hm

theorem Memory.read_of_lt {lo a : Nat} {m : Memory} (hm : Memory.wfFrom lo m = true) (h : a < lo) :
    m.read a = unlistedByte := by
  induction m generalizing lo with
  | nil => rfl
  | cons c rest ih =>
    obtain ⟨k, v⟩ := c
    rw [Memory.wfFrom_cons] at hm
    have hk : k ≠ a := by omega
    simpa [Memory.read, hk] using ih hm.2.2.2 (by omega)

theorem Memory.eq_of_read_from {lo : Nat} {m n : Memory} (hm : Memory.wfFrom lo m = true)
    (hn : Memory.wfFrom lo n = true) (h : ∀ a, m.read a = n.read a) : m = n := by
  induction m generalizing lo n with
  | nil =>
    cases n with
    | nil => rfl
    | cons c rest =>
      obtain ⟨k, v⟩ := c
      rw [Memory.wfFrom_cons] at hn
      exact absurd (h k).symm (by simpa [Memory.read] using hn.2.2.1)
  | cons c rest ih =>
    obtain ⟨k, v⟩ := c
    have hm' := Memory.wfFrom_cons.mp hm
    cases n with
    | nil => exact absurd (h k) (by simpa [Memory.read] using hm'.2.2.1)
    | cons d rest' =>
      obtain ⟨k', v'⟩ := d
      have hn' := Memory.wfFrom_cons.mp hn
      have hkk : k = k' := by
        rcases Nat.lt_trichotomy k k' with hlt | heq | hgt
        · have e := h k
          have ne : k' ≠ k := by omega
          rw [show Memory.read ((k, v) :: rest) k = v by simp [Memory.read],
            show Memory.read ((k', v') :: rest') k = Memory.read rest' k by simp [Memory.read, ne],
            Memory.read_of_lt hn'.2.2.2 (by omega)] at e
          exact absurd e hm'.2.2.1
        · exact heq
        · have e := h k'
          have ne : k ≠ k' := by omega
          rw [show Memory.read ((k', v') :: rest') k' = v' by simp [Memory.read],
            show Memory.read ((k, v) :: rest) k' = Memory.read rest k' by simp [Memory.read, ne],
            Memory.read_of_lt hm'.2.2.2 (by omega)] at e
          exact absurd e.symm hn'.2.2.1
      subst hkk
      have hvv : v = v' := by simpa [Memory.read] using h k
      subst hvv
      have hrest : rest = rest' := by
        refine ih hm'.2.2.2 hn'.2.2.2 fun a => ?_
        by_cases ha : k = a
        · subst ha
          rw [Memory.read_of_lt hm'.2.2.2 (by omega), Memory.read_of_lt hn'.2.2.2 (by omega)]
        · simpa [Memory.read, ha] using h a
      rw [hrest]

/-- Two canonical memories that read alike everywhere are the same list. -/
theorem Memory.ext_of_wf {m n : Memory} (hm : Memory.wf m = true) (hn : Memory.wf n = true)
    (h : ∀ a, m.read a = n.read a) : m = n :=
  Memory.eq_of_read_from hm hn h

/-! ### The memory of an image -/

theorem Memory.wfFrom_ofBytesFrom (a : Nat) (bs : List Byte) (h : a + bs.length ≤ Config.memSize) :
    Memory.wfFrom a (Memory.ofBytesFrom a bs) = true := by
  induction bs generalizing a with
  | nil => rfl
  | cons b rest ih =>
    have hr := ih (a + 1) (by simp at h; omega)
    by_cases hb : b = unlistedByte
    · simpa [Memory.ofBytesFrom, hb] using Memory.wfFrom_mono (Nat.le_succ a) hr
    · have ha : a < Config.memSize := by simp at h; omega
      simpa [Memory.ofBytesFrom, hb, Memory.wfFrom_cons, ha] using hr

theorem Memory.read_ofBytesFrom_lt (a b : Nat) (bs : List Byte) (h : b < a) :
    (Memory.ofBytesFrom a bs).read b = unlistedByte := by
  induction bs generalizing a with
  | nil => rfl
  | cons c rest ih =>
    have hne : a ≠ b := by omega
    by_cases hc : c = unlistedByte
    · simpa [Memory.ofBytesFrom, hc] using ih (a + 1) (by omega)
    · simpa [Memory.ofBytesFrom, hc, Memory.read, hne] using ih (a + 1) (by omega)

theorem Memory.read_ofBytesFrom (a i : Nat) (bs : List Byte) :
    (Memory.ofBytesFrom a bs).read (a + i) = bs.getD i unlistedByte := by
  induction bs generalizing a i with
  | nil => simp [Memory.ofBytesFrom, Memory.read]
  | cons c rest ih =>
    cases i with
    | zero =>
      by_cases hc : c = unlistedByte
      · simpa [Memory.ofBytesFrom, hc] using Memory.read_ofBytesFrom_lt (a + 1) a rest (by omega)
      · simp [Memory.ofBytesFrom, hc, Memory.read]
    | succ j =>
      have hj := ih (a + 1) j
      rw [show a + 1 + j = a + (j + 1) by omega] at hj
      by_cases hc : c = unlistedByte
      · simpa [Memory.ofBytesFrom, hc] using hj
      · simpa [Memory.ofBytesFrom, hc, Memory.read] using hj

/-- The memory of an image is canonical. -/
theorem Memory.wf_ofImage (image : Vector Byte 256) : Memory.wf (Memory.ofImage image) = true :=
  Memory.wfFrom_ofBytesFrom 0 image.toList (by simp [Config.memSize])

/-- Each cell of the memory of an image holds the image's byte. -/
theorem Memory.read_ofImage (image : Vector Byte 256) (i : Fin 256) :
    (Memory.ofImage image).read i.val = image[i.val] := by
  have h := Memory.read_ofBytesFrom 0 i.val image.toList
  rw [Nat.zero_add] at h
  rw [Memory.ofImage, h, List.getD_eq_getElem _ _ (by simp)]
  simp

/-! ### Through the state -/

theorem readMem_writeMem (a b : Addr) (v : Byte) (s : State) :
    readMem (writeMem a v s) b = if b = a then v else readMem s b := by
  simp [readMem, Memory.read_write, BitVec.toNat_inj]

@[simp] theorem readMem_writeMem_same (a : Addr) (v : Byte) (s : State) :
    readMem (writeMem a v s) a = v := by
  simp [readMem_writeMem]

theorem readMem_writeMem_of_ne {a b : Addr} (h : b ≠ a) (v : Byte) (s : State) :
    readMem (writeMem a v s) b = readMem s b := by
  simp [readMem_writeMem, h]

theorem wf_writeMem (a : Addr) (v : Byte) {s : State} (h : Memory.wf s.mem = true) :
    Memory.wf (writeMem a v s).mem = true :=
  Memory.wf_write v (by simpa [Config.memSize] using a.isLt) h

/-- Placing an instruction at the pc keeps the canonical form. -/
theorem wf_placeAtPc (ir A B : Byte) {s : State} (h : Memory.wf s.mem = true) :
    Memory.wf (placeAtPc ir A B s).mem = true :=
  wf_writeMem _ _ (wf_writeMem _ _ (wf_writeMem _ _ h))

end Sys2Proof.Machine
end

