-- ==== Sys2Proof/Laws/Ops.lean ====
section
/-! SUPPORT. One lemma per shared operation that says once what it can do, for the proofs to cite: the flags of a
comparison, the uses of the ALU, the stack operations, the conditional jump, the dispatch and the step. -/

namespace Sys2Proof.Machine

/-! ### Operands and flags -/

@[simp] theorem operandValue_eq (a : RegOperand) (s : State) : operandValue a s = readReg s a.index := rfl

@[simp] theorem writeOperand_eq (a : RegOperand) (v : Byte) (s : State) :
    writeOperand a v s = writeReg a.index v s := rfl

@[simp] theorem indirectAddr_eq (a : RegOperand) (s : State) : indirectAddr a s = readReg s a.index := rfl

@[simp] theorem immediateValue_eq (imm : Byte) : immediateValue imm = imm := rfl

theorem compareFlags_E_iff (x y : Byte) : (compareFlags x y).E = true ↔ x.toNat = y.toNat :=
  decide_eq_true_iff

theorem compareFlags_L_iff (x y : Byte) : (compareFlags x y).L = true ↔ x.toNat < y.toNat :=
  decide_eq_true_iff

theorem compareFlags_G_iff (x y : Byte) : (compareFlags x y).G = true ↔ x.toNat > y.toNat :=
  decide_eq_true_iff

/-- A comparison sets E alone, L alone or G alone (`41_alu_bitwise_compare.md` R98). -/
theorem compareFlags_cases (x y : Byte) :
    compareFlags x y = ⟨true, false, false⟩ ∨ compareFlags x y = ⟨false, true, false⟩ ∨
      compareFlags x y = ⟨false, false, true⟩ := by
  rcases Nat.lt_trichotomy x.toNat y.toNat with h | h | h
  · exact .inr (.inl (by simp only [compareFlags]; simp [h, h.ne, h.le]))
  · exact .inl (by simp only [compareFlags]; simp [h])
  · exact .inr (.inr (by simp only [compareFlags]; simp [h, h.ne', h.le]))

/-! ### The ALU -/

theorem useAlu_of_value {tag : AluTag} {a b : RegOperand} {s : State} {v : Byte} (n : Byte)
    (h : aluAnswer tag (readReg s a.index) (readReg s b.index) = .value v) :
    useAlu tag a b n s = advance n (writeReg a.index v s) := by
  simp [useAlu, h]

theorem useAlu_of_flags {tag : AluTag} {a b : RegOperand} {s : State} {f : Flags} (n : Byte)
    (h : aluAnswer tag (readReg s a.index) (readReg s b.index) = .flags f) :
    useAlu tag a b n s = advance n (setFlags f s) := by
  simp [useAlu, h]

theorem useAlu_of_fault {tag : AluTag} {a b : RegOperand} {s : State} {f : FaultKind} (n : Byte)
    (h : aluAnswer tag (readReg s a.index) (readReg s b.index) = .fault f) :
    useAlu tag a b n s = raiseFault f s := by
  simp [useAlu, h]

/-! ### The stack -/

@[simp] theorem readSp_eq (s : State) : readSp s = readReg s 7 := rfl

@[simp] theorem pushAddr_eq (s : State) : pushAddr s = readReg s 7 - 1#8 := rfl

@[simp] theorem decrementSp_eq (s : State) : decrementSp s = writeReg 7 (readReg s 7 - 1#8) s := rfl

@[simp] theorem incrementSp_eq (s : State) : incrementSp s = writeReg 7 (readReg s 7 + 1#8) s := rfl

@[simp] theorem storeTop_eq (v : Byte) (s : State) : storeTop v s = writeMem (readReg s 7) v s := rfl

@[simp] theorem readTop_eq (s : State) : readTop s = readMem s (readReg s 7) := rfl

/-- What PUSH does before the pc moves (`45_stack.md` R146, R147). -/
theorem pushOperand_eq (a : RegOperand) (s : State) :
    pushOperand a s = writeMem (readReg s 7 - 1#8)
      (if a.index = 7 then readReg s 7 - 1#8 else readReg s a.index) (writeReg 7 (readReg s 7 - 1#8) s) := by
  simp [pushOperand, readReg_writeReg]

/-- What POP does before the pc moves (`45_stack.md` R147, R148). -/
theorem popOperand_eq (a : RegOperand) (s : State) :
    popOperand a s = writeReg 7
      ((if a.index = 7 then readMem s (readReg s 7) else readReg s 7) + 1#8)
      (writeReg a.index (readMem s (readReg s 7)) s) := by
  by_cases h : a.index = 7
  · simp [popOperand, h]
  · simp [popOperand, h, readReg_writeReg, Ne.symm h]

/-- What CALL pushes (`46_control_flow.md` R156). -/
theorem pushReturn_eq (s : State) :
    pushReturn s = writeMem (readReg s 7 - 1#8) (s.pc + 2#8) (writeReg 7 (readReg s 7 - 1#8) s) := by
  simp [pushReturn]

/-! ### Jumps, dispatch, step -/

theorem jumpIf_true (a : RegOperand) (s : State) : jumpIf true a s = setPc (readReg s a.index) s := rfl

theorem jumpIf_false (a : RegOperand) (s : State) : jumpIf false a s = advance 2#8 s := rfl

theorem dispatch_of_instr {s : State} {i : Instr} (h : decode s.ir s.opA s.opB = .instr i) :
    dispatch s = exec i s := by
  simp [dispatch, h]

theorem dispatch_of_illegal {s : State} {why : DecodeError} (h : decode s.ir s.opA s.opB = .illegal why) :
    dispatch s = .next (raiseFault .illegalInstruction s) := by
  simp [dispatch, h, rejectOpcode]

theorem step_of_running {s : State} (h : s.run = .running) : step s = dispatch (fetch s) := by
  simp [step, h]

theorem step_of_not_running {s : State} (h : s.run ≠ .running) : step s = .next s := by
  cases hr : s.run <;> simp_all [step]

end Sys2Proof.Machine
end

