-- ==== Sys2Proof/Laws/PerInstr.lean ====
section
/-! SUPPORT. Statements made of every instruction, one lemma per constructor of `Instr`. -/

/-- The encoding of an instruction is 1 to 3 bytes: as many operand bytes follow the opcode byte as its bits 7:6
say (spec/30_encoding.md R55). -/
def Sys2Proof.Laws.EncodedLength.Statement (i : Sys2Proof.Instr) : Prop :=
  (Sys2Proof.encode i).length = 1 + Sys2Proof.operandCount i.op.byte

namespace Sys2Proof.Laws.EncodedLength

theorem of_count {i : Instr} (o : Op) (n : Nat) (h : i.op = o ∧ i.operandBytes.length = n)
    (hn : operandCount o.byte = n) :
    Statement i := by
  rw [Statement, encode, List.length_cons, h.2, h.1, hn, Nat.add_comm]

theorem nop : Statement (.nop) := of_count .nop 0 ⟨rfl, rfl⟩ (by decide)
theorem hlt : Statement (.hlt) := of_count .hlt 0 ⟨rfl, rfl⟩ (by decide)
theorem ret : Statement (.ret) := of_count .ret 0 ⟨rfl, rfl⟩ (by decide)
theorem push (a : RegOperand) : Statement (.push a) := of_count .push 1 ⟨rfl, rfl⟩ (by decide)
theorem pop (a : RegOperand) : Statement (.pop a) := of_count .pop 1 ⟨rfl, rfl⟩ (by decide)
theorem prn (a : RegOperand) : Statement (.prn a) := of_count .prn 1 ⟨rfl, rfl⟩ (by decide)
theorem pra (a : RegOperand) : Statement (.pra a) := of_count .pra 1 ⟨rfl, rfl⟩ (by decide)
theorem call (a : RegOperand) : Statement (.call a) := of_count .call 1 ⟨rfl, rfl⟩ (by decide)
theorem jmp (a : RegOperand) : Statement (.jmp a) := of_count .jmp 1 ⟨rfl, rfl⟩ (by decide)
theorem jeq (a : RegOperand) : Statement (.jeq a) := of_count .jeq 1 ⟨rfl, rfl⟩ (by decide)
theorem jne (a : RegOperand) : Statement (.jne a) := of_count .jne 1 ⟨rfl, rfl⟩ (by decide)
theorem jgt (a : RegOperand) : Statement (.jgt a) := of_count .jgt 1 ⟨rfl, rfl⟩ (by decide)
theorem jlt (a : RegOperand) : Statement (.jlt a) := of_count .jlt 1 ⟨rfl, rfl⟩ (by decide)
theorem jle (a : RegOperand) : Statement (.jle a) := of_count .jle 1 ⟨rfl, rfl⟩ (by decide)
theorem jge (a : RegOperand) : Statement (.jge a) := of_count .jge 1 ⟨rfl, rfl⟩ (by decide)
theorem inc (a : RegOperand) : Statement (.inc a) := of_count .inc 1 ⟨rfl, rfl⟩ (by decide)
theorem dec (a : RegOperand) : Statement (.dec a) := of_count .dec 1 ⟨rfl, rfl⟩ (by decide)
theorem not (a : RegOperand) : Statement (.not a) := of_count .not 1 ⟨rfl, rfl⟩ (by decide)
theorem ldi (a : RegOperand) (imm : Byte) : Statement (.ldi a imm) := of_count .ldi 2 ⟨rfl, rfl⟩ (by decide)
theorem ld (a b : RegOperand) : Statement (.ld a b) := of_count .ld 2 ⟨rfl, rfl⟩ (by decide)
theorem st (a b : RegOperand) : Statement (.st a b) := of_count .st 2 ⟨rfl, rfl⟩ (by decide)
theorem add (a b : RegOperand) : Statement (.add a b) := of_count .add 2 ⟨rfl, rfl⟩ (by decide)
theorem sub (a b : RegOperand) : Statement (.sub a b) := of_count .sub 2 ⟨rfl, rfl⟩ (by decide)
theorem mul (a b : RegOperand) : Statement (.mul a b) := of_count .mul 2 ⟨rfl, rfl⟩ (by decide)
theorem div (a b : RegOperand) : Statement (.div a b) := of_count .div 2 ⟨rfl, rfl⟩ (by decide)
theorem mod (a b : RegOperand) : Statement (.mod a b) := of_count .mod 2 ⟨rfl, rfl⟩ (by decide)
theorem cmp (a b : RegOperand) : Statement (.cmp a b) := of_count .cmp 2 ⟨rfl, rfl⟩ (by decide)
theorem and (a b : RegOperand) : Statement (.and a b) := of_count .and 2 ⟨rfl, rfl⟩ (by decide)
theorem or (a b : RegOperand) : Statement (.or a b) := of_count .or 2 ⟨rfl, rfl⟩ (by decide)
theorem xor (a b : RegOperand) : Statement (.xor a b) := of_count .xor 2 ⟨rfl, rfl⟩ (by decide)
theorem shl (a b : RegOperand) : Statement (.shl a b) := of_count .shl 2 ⟨rfl, rfl⟩ (by decide)
theorem shr (a b : RegOperand) : Statement (.shr a b) := of_count .shr 2 ⟨rfl, rfl⟩ (by decide)

end Sys2Proof.Laws.EncodedLength
end

