-- ==== Sys2Proof/Tests/Slice0.lean ====
section
/-! SUPPORT. The model's own tests. Expected results come from the spec: the words of spec/30_encoding.md R62 and
the vectors of spec/95_test_vectors.md, whose ids the comments give. -/

namespace Sys2Proof.Tests

open Sys2Proof.Machine

/-! ### Helpers -/

/-- The state after one step, if the step answers one. -/
def after (s : State) : Option State :=
  match step s with
  | .next t => some t
  | .fault _ => none
  | .refused _ => none

/-- The vector base state of 95_test_vectors.md: as after reset, with pc = 0x20. -/
def base : State := { State.reset with pc := 0x20#8 }

/-- Bytes stored at rising addresses from `a` on. -/
def put (a : Addr) : List Byte → State → State
  | [], s => s
  | b :: bs, s => put (a + 1#8) bs (writeMem a b s)

/-- The base state with bytes at the pc and R1, R2 set. -/
def at20 (bytes : List Byte) (r1 r2 : Byte) : State :=
  put 0x20#8 bytes (writeReg 1 r1 (writeReg 2 r2 base))

/-- The base state with bytes at the pc and SP set. -/
def withSp (bytes : List Byte) (sp : Byte) : State :=
  put 0x20#8 bytes (writeReg 7 sp base)

/-- A register and the pc after one step. -/
def regAndPc (r : RegIdx) (s : State) : Option (Byte × Addr) :=
  (after s).map fun t => (readReg t r, t.pc)

/-- The flags E, L, G and the pc after one step. -/
def elgAndPc (s : State) : Option (Bool × Bool × Bool × Addr) :=
  (after s).map fun t => (t.flags.E, t.flags.L, t.flags.G, t.pc)

/-- The pc after one step of a two-byte jump on R1 = 0x99, for ELG = 000, 100, 010, 001. -/
def jumpRow (op : Byte) : List (Option Addr) :=
  [⟨false, false, false⟩, ⟨true, false, false⟩, ⟨false, true, false⟩, ⟨false, false, true⟩].map fun f =>
    (after (setFlags f (at20 [op, 0x01#8] 0x99#8 0#8))).map State.pc

/-! ### Well-formed instructions: the canonical operand check refuses -/

def bad : RegOperand := ⟨1#5, 3⟩
def good : RegOperand := RegOperand.reg 3

theorem test_wellFormed_refuses_first_operand :
    ([.push bad, .pop bad, .prn bad, .pra bad, .call bad, .jmp bad, .jeq bad, .jne bad, .jgt bad, .jlt bad, .jle bad, .jge bad, .inc bad, .dec bad, .not bad,
      .ldi bad 0x12#8, .ld bad good, .st bad good, .add bad good, .sub bad good, .mul bad good, .div bad good, .mod bad good, .cmp bad good, .and bad good, .or bad good, .xor bad good, .shl bad good, .shr bad good] : List Instr).all (fun i => !i.wellFormed) = true := by
  decide

theorem test_wellFormed_refuses_second_operand :
    ([.ld good bad, .st good bad, .add good bad, .sub good bad, .mul good bad, .div good bad, .mod good bad, .cmp good bad, .and good bad, .or good bad, .xor good bad, .shl good bad, .shr good bad] : List Instr).all
      (fun i => !i.wellFormed) = true := by
  decide

theorem test_wellFormed_accepts_canonical :
    ([.nop, .hlt, .ret, .inc good, .ldi good 0xFF#8, .add good good] : List Instr).all Instr.wellFormed = true := by
  decide

/-! ### Decoding: one word per instruction, written out from 30_encoding.md R62 and R57 -/

theorem test_decode_nop : decode 0b00000000#8 0b11111111#8 0b11111111#8 = .instr .nop := by decide
theorem test_decode_hlt : decode 0b00000001#8 0b11111111#8 0b11111111#8 = .instr .hlt := by decide
theorem test_decode_ret : decode 0b00010001#8 0b11111111#8 0b11111111#8 = .instr .ret := by decide
theorem test_decode_push : decode 0b01000101#8 0b00000101#8 0b11111111#8 = .instr (.push ⟨0b00000#5, 5⟩) := by decide
theorem test_decode_pop : decode 0b01000110#8 0b00000101#8 0b11111111#8 = .instr (.pop ⟨0b00000#5, 5⟩) := by decide
theorem test_decode_prn : decode 0b01000111#8 0b00000101#8 0b11111111#8 = .instr (.prn ⟨0b00000#5, 5⟩) := by decide
theorem test_decode_pra : decode 0b01001000#8 0b00000101#8 0b11111111#8 = .instr (.pra ⟨0b00000#5, 5⟩) := by decide
theorem test_decode_call : decode 0b01010000#8 0b00000101#8 0b11111111#8 = .instr (.call ⟨0b00000#5, 5⟩) := by decide
theorem test_decode_jmp : decode 0b01010100#8 0b00000101#8 0b11111111#8 = .instr (.jmp ⟨0b00000#5, 5⟩) := by decide
theorem test_decode_jeq : decode 0b01010101#8 0b00000101#8 0b11111111#8 = .instr (.jeq ⟨0b00000#5, 5⟩) := by decide
theorem test_decode_jne : decode 0b01010110#8 0b00000101#8 0b11111111#8 = .instr (.jne ⟨0b00000#5, 5⟩) := by decide
theorem test_decode_jgt : decode 0b01010111#8 0b00000101#8 0b11111111#8 = .instr (.jgt ⟨0b00000#5, 5⟩) := by decide
theorem test_decode_jlt : decode 0b01011000#8 0b00000101#8 0b11111111#8 = .instr (.jlt ⟨0b00000#5, 5⟩) := by decide
theorem test_decode_jle : decode 0b01011001#8 0b00000101#8 0b11111111#8 = .instr (.jle ⟨0b00000#5, 5⟩) := by decide
theorem test_decode_jge : decode 0b01011010#8 0b00000101#8 0b11111111#8 = .instr (.jge ⟨0b00000#5, 5⟩) := by decide
theorem test_decode_inc : decode 0b01100101#8 0b00000101#8 0b11111111#8 = .instr (.inc ⟨0b00000#5, 5⟩) := by decide
theorem test_decode_dec : decode 0b01100110#8 0b00000101#8 0b11111111#8 = .instr (.dec ⟨0b00000#5, 5⟩) := by decide
theorem test_decode_not : decode 0b01101001#8 0b00000101#8 0b11111111#8 = .instr (.not ⟨0b00000#5, 5⟩) := by decide
theorem test_decode_ldi : decode 0b10000010#8 0b11111001#8 0b10010010#8 = .instr (.ldi ⟨0b11111#5, 1⟩ 0b10010010#8) := by decide
theorem test_decode_ld : decode 0b10000011#8 0b00000110#8 0b10101011#8 = .instr (.ld ⟨0b00000#5, 6⟩ ⟨0b10101#5, 3⟩) := by decide
theorem test_decode_st : decode 0b10000100#8 0b00000110#8 0b10101011#8 = .instr (.st ⟨0b00000#5, 6⟩ ⟨0b10101#5, 3⟩) := by decide
theorem test_decode_add : decode 0b10100000#8 0b00000110#8 0b10101011#8 = .instr (.add ⟨0b00000#5, 6⟩ ⟨0b10101#5, 3⟩) := by decide
theorem test_decode_sub : decode 0b10100001#8 0b00000110#8 0b10101011#8 = .instr (.sub ⟨0b00000#5, 6⟩ ⟨0b10101#5, 3⟩) := by decide
theorem test_decode_mul : decode 0b10100010#8 0b00000110#8 0b10101011#8 = .instr (.mul ⟨0b00000#5, 6⟩ ⟨0b10101#5, 3⟩) := by decide
theorem test_decode_div : decode 0b10100011#8 0b00000110#8 0b10101011#8 = .instr (.div ⟨0b00000#5, 6⟩ ⟨0b10101#5, 3⟩) := by decide
theorem test_decode_mod : decode 0b10100100#8 0b00000110#8 0b10101011#8 = .instr (.mod ⟨0b00000#5, 6⟩ ⟨0b10101#5, 3⟩) := by decide
theorem test_decode_cmp : decode 0b10100111#8 0b00000110#8 0b10101011#8 = .instr (.cmp ⟨0b00000#5, 6⟩ ⟨0b10101#5, 3⟩) := by decide
theorem test_decode_and : decode 0b10101000#8 0b00000110#8 0b10101011#8 = .instr (.and ⟨0b00000#5, 6⟩ ⟨0b10101#5, 3⟩) := by decide
theorem test_decode_or : decode 0b10101010#8 0b00000110#8 0b10101011#8 = .instr (.or ⟨0b00000#5, 6⟩ ⟨0b10101#5, 3⟩) := by decide
theorem test_decode_xor : decode 0b10101011#8 0b00000110#8 0b10101011#8 = .instr (.xor ⟨0b00000#5, 6⟩ ⟨0b10101#5, 3⟩) := by decide
theorem test_decode_shl : decode 0b10101100#8 0b00000110#8 0b10101011#8 = .instr (.shl ⟨0b00000#5, 6⟩ ⟨0b10101#5, 3⟩) := by decide
theorem test_decode_shr : decode 0b10101101#8 0b00000110#8 0b10101011#8 = .instr (.shr ⟨0b00000#5, 6⟩ ⟨0b10101#5, 3⟩) := by decide
theorem test_decode_illegal_INT : decode 0x52#8 0x00#8 0x00#8 = .illegal (.unassignedOpcode 0x52#8) := by decide
theorem test_decode_illegal_three_operands : decode 0xC0#8 0x00#8 0x00#8 = .illegal (.threeOperandBytes 0xC0#8) := by
  decide
theorem test_decodeTableWord_add : decodeTableWord 24 0x0201A0 = some (.add ⟨0#5, 1⟩ ⟨0#5, 2⟩) := by decide
theorem test_decodeTableWord_short : decodeTableWord 8 0x0201A0 = some (.add ⟨0#5, 0⟩ ⟨0#5, 0⟩) := by decide
theorem test_encode_shr : encode (.shr ⟨0#5, 1⟩ ⟨0#5, 2⟩) = [0xAD#8, 0x01#8, 0x02#8] := by decide

/-! ### One step: the vectors of 95_test_vectors.md section 2 -/

-- A1, A30
theorem test_add_wraps : regAndPc 1 (at20 [0xA0#8, 1#8, 2#8] 0xC8#8 0x64#8) = some (0x2C#8, 0x23#8) := by decide
theorem test_add_ignores_high_operand_bits :
    regAndPc 1 (at20 [0xA0#8, 0x09#8, 0xFA#8] 1#8 2#8) = some (3#8, 0x23#8) := by decide
-- A3
theorem test_sub_wraps : regAndPc 1 (at20 [0xA1#8, 1#8, 2#8] 0x05#8 0x0A#8) = some (0xFB#8, 0x23#8) := by decide
-- A7
theorem test_mul_keeps_low_byte : regAndPc 1 (at20 [0xA2#8, 1#8, 2#8] 0xFF#8 0xFF#8) = some (1#8, 0x23#8) := by decide
-- A12, A14
theorem test_div_is_unsigned : regAndPc 1 (at20 [0xA3#8, 1#8, 2#8] 0xFF#8 1#8) = some (0xFF#8, 0x23#8) := by decide
theorem test_div_by_zero : (after (at20 [0xA3#8, 1#8, 2#8] 5#8 0#8)).map
    (fun t => (t.run, t.cause, t.pc, readReg t 1)) = some (.faulted, some .divideByZero, 0x20#8, 5#8) := by decide
-- A15, A18
theorem test_mod_remainder : regAndPc 1 (at20 [0xA4#8, 1#8, 2#8] 0xC8#8 7#8) = some (4#8, 0x23#8) := by decide
theorem test_mod_by_zero : (after (at20 [0xA4#8, 1#8, 2#8] 9#8 0#8)).map
    (fun t => (t.run, t.cause, t.pc, readReg t 1)) = some (.faulted, some .divideByZero, 0x20#8, 9#8) := by decide
-- UN1, UN5
theorem test_inc_wraps : regAndPc 1 (at20 [0x65#8, 1#8] 0xFF#8 0#8) = some (0#8, 0x22#8) := by decide
theorem test_inc_keeps_flags : elgAndPc (setFlags ⟨false, true, false⟩ (at20 [0x65#8, 1#8] 1#8 0#8)) =
    some (false, true, false, 0x22#8) := by decide
-- UN3
theorem test_dec_wraps : regAndPc 1 (at20 [0x66#8, 1#8] 0#8 0#8) = some (0xFF#8, 0x22#8) := by decide
-- B1, B2, B3, B5
theorem test_and : regAndPc 1 (at20 [0xA8#8, 1#8, 2#8] 0xCC#8 0xAA#8) = some (0x88#8, 0x23#8) := by decide
theorem test_or : regAndPc 1 (at20 [0xAA#8, 1#8, 2#8] 0xCC#8 0xAA#8) = some (0xEE#8, 0x23#8) := by decide
theorem test_xor : regAndPc 1 (at20 [0xAB#8, 1#8, 2#8] 0xCC#8 0xAA#8) = some (0x66#8, 0x23#8) := by decide
theorem test_not : regAndPc 1 (at20 [0x69#8, 1#8] 0xA5#8 0#8) = some (0x5A#8, 0x22#8) := by decide
-- B7, B11
theorem test_shl_loses_top_bit : regAndPc 1 (at20 [0xAC#8, 1#8, 2#8] 0x81#8 1#8) = some (2#8, 0x23#8) := by decide
theorem test_shl_amount_unmasked : regAndPc 1 (at20 [0xAC#8, 1#8, 2#8] 0xFF#8 0xFF#8) = some (0#8, 0x23#8) := by decide
-- B12, B13
theorem test_shr_is_logical : regAndPc 1 (at20 [0xAD#8, 1#8, 2#8] 0x81#8 1#8) = some (0x40#8, 0x23#8) := by decide
theorem test_shr_by_seven : regAndPc 1 (at20 [0xAD#8, 1#8, 2#8] 0x80#8 7#8) = some (1#8, 0x23#8) := by decide
-- CM5, CM6
theorem test_cmp_is_unsigned : elgAndPc (at20 [0xA7#8, 1#8, 2#8] 0x80#8 0x7F#8) = some (false, false, true, 0x23#8) := by
  decide
theorem test_cmp_clears_old_flag : elgAndPc (setFlags ⟨false, false, true⟩ (at20 [0xA7#8, 1#8, 2#8] 5#8 5#8)) =
    some (true, false, false, 0x23#8) := by decide
-- M3, DP11
theorem test_ldi_keeps_whole_immediate : regAndPc 1 (at20 [0x82#8, 0xF9#8, 0x12#8] 0#8 0#8) = some (0x12#8, 0x23#8) := by
  decide
theorem test_ldi_across_top_of_memory :
    regAndPc 1 (setPc 0xFE#8 (put 0xFE#8 [0x82#8, 1#8, 0x33#8] base)) = some (0x33#8, 1#8) := by decide
-- M5
theorem test_ld_own_address_register :
    regAndPc 1 (put 0x90#8 [0x3C#8] (at20 [0x83#8, 1#8, 1#8] 0x90#8 0#8)) = some (0x3C#8, 0x23#8) := by decide
-- M6, M7
theorem test_st_address_first : (after (at20 [0x84#8, 1#8, 2#8] 0x90#8 0x3C#8)).map
    (fun t => (readMem t 0x90#8, readMem t 0x3C#8, t.pc)) = some (0x3C#8, 0#8, 0x23#8) := by decide
theorem test_st_same_register : (after (at20 [0x84#8, 1#8, 1#8] 0x90#8 0#8)).map
    (fun t => (readMem t 0x90#8, t.pc)) = some (0x90#8, 0x23#8) := by decide
-- O1, O5
theorem test_prn : (after (at20 [0x47#8, 1#8] 0xFF#8 0#8)).map (fun t => (t.out, t.pc)) =
    some ([⟨.prn, 255#8⟩], 0x22#8) := by decide
theorem test_pra : (after (at20 [0x48#8, 1#8] 0xE9#8 0#8)).map (fun t => (t.out, t.pc)) =
    some ([⟨.pra, 233#8⟩], 0x22#8) := by decide
-- S4, S9
theorem test_push_r7_pushes_decremented : (after (withSp [0x45#8, 7#8] 0xF4#8)).map
    (fun t => (readReg t 7, readMem t 0xF3#8, t.pc)) = some (0xF3#8, 0xF3#8, 0x22#8) := by decide
theorem test_push_onto_own_operand : (after (writeReg 1 0xAB#8 (withSp [0x45#8, 1#8] 0x22#8))).map
    (fun t => (readReg t 7, readMem t 0x21#8, t.pc)) = some (0x21#8, 0xAB#8, 0x22#8) := by decide
-- S6, S8
theorem test_pop_wraps_sp : (after (put 0xFF#8 [0x77#8] (withSp [0x46#8, 1#8] 0xFF#8))).map
    (fun t => (readReg t 1, readReg t 7, t.pc)) = some (0x77#8, 0#8, 0x22#8) := by decide
theorem test_pop_r7 : regAndPc 7 (put 0xF3#8 [0x10#8] (withSp [0x46#8, 7#8] 0xF3#8)) = some (0x11#8, 0x22#8) := by
  decide
-- F2, F3
theorem test_call_r7 : (after (withSp [0x50#8, 7#8] 0xF4#8)).map
    (fun t => (t.pc, readReg t 7, readMem t 0xF3#8)) = some (0xF3#8, 0xF3#8, 0x22#8) := by decide
theorem test_call_at_top_of_memory : (after (setPc 0xFF#8 (put 0xFF#8 [0x50#8, 1#8] (writeReg 1 0x80#8 base)))).map
    (fun t => (t.pc, readReg t 7, readMem t 0xF3#8)) = some (0x80#8, 0xF3#8, 0x01#8) := by decide
-- F4, F5
theorem test_ret : regAndPc 7 (put 0xF3#8 [0x22#8] (withSp [0x11#8] 0xF3#8)) = some (0xF4#8, 0x22#8) := by decide
theorem test_ret_wraps_sp : regAndPc 7 (put 0xFF#8 [0x40#8] (withSp [0x11#8] 0xFF#8)) = some (0#8, 0x40#8) := by decide
-- F7
theorem test_jmp : regAndPc 1 (at20 [0x54#8, 1#8] 0x99#8 0#8) = some (0x99#8, 0x99#8) := by decide
-- J1 to J6
theorem test_jeq : jumpRow 0x55#8 = [some 0x22#8, some 0x99#8, some 0x22#8, some 0x22#8] := by decide
theorem test_jne : jumpRow 0x56#8 = [some 0x99#8, some 0x22#8, some 0x99#8, some 0x99#8] := by decide
theorem test_jgt : jumpRow 0x57#8 = [some 0x22#8, some 0x22#8, some 0x22#8, some 0x99#8] := by decide
theorem test_jlt : jumpRow 0x58#8 = [some 0x22#8, some 0x22#8, some 0x99#8, some 0x22#8] := by decide
theorem test_jle : jumpRow 0x59#8 = [some 0x22#8, some 0x99#8, some 0x99#8, some 0x22#8] := by decide
theorem test_jge : jumpRow 0x5A#8 = [some 0x22#8, some 0x99#8, some 0x22#8, some 0x99#8] := by decide
-- DP1, DP2
theorem test_nop : (after base).map State.pc = some 0x21#8 := by decide
theorem test_nop_at_top_of_memory : (after (setPc 0xFF#8 base)).map State.pc = some 0x00#8 := by decide
-- DP3, DP4
theorem test_hlt : (after (at20 [0x01#8] 0#8 0#8)).map (fun t => (t.run, t.pc)) = some (.halted, 0x20#8) := by decide
theorem test_step_in_halted : after (halt (at20 [0xA0#8, 1#8, 2#8] 1#8 1#8)) =
    some (halt (at20 [0xA0#8, 1#8, 2#8] 1#8 1#8)) := by decide
-- DP7, DP9
theorem test_illegal_byte : (after (at20 [0x13#8] 0#8 0#8)).map (fun t => (t.run, t.cause, t.pc, t.ir)) =
    some (.faulted, some .illegalInstruction, 0x20#8, 0x13#8) := by decide
theorem test_illegal_before_operands : (after (at20 [0xA5#8, 1#8, 2#8] 5#8 0#8)).map
    (fun t => (t.run, t.cause, t.pc, readReg t 1)) = some (.faulted, some .illegalInstruction, 0x20#8, 5#8) := by decide
-- RS1, E7
theorem test_reset : (State.reset.regs.toList, State.reset.pc, State.reset.mem) =
    ([0#8, 0#8, 0#8, 0#8, 0#8, 0#8, 0#8, 0xF4#8], 0#8, []) := by decide
-- the two examples of 44_output.md R138, section E5
theorem test_text_of_prn : OutEvent.text ⟨.prn, 15#8⟩ = [49, 53, 10] := by decide
/-- R138: `0` for zero, where the clause against leading zeros has its boundary, and the ends of 1, 2 and 3 digits. -/
theorem test_witness_EventTextIsAsRecorded :
    OutEvent.text ⟨.prn, 0#8⟩ = [48, 10] ∧
    OutEvent.text ⟨.prn, 9#8⟩ = [57, 10] ∧ OutEvent.text ⟨.prn, 10#8⟩ = [49, 48, 10] ∧
    OutEvent.text ⟨.prn, 99#8⟩ = [57, 57, 10] ∧ OutEvent.text ⟨.prn, 100#8⟩ = [49, 48, 48, 10] ∧
    OutEvent.text ⟨.prn, 255#8⟩ = [50, 53, 53, 10] ∧
    OutEvent.text ⟨.pra, 0#8⟩ = [0] ∧ OutEvent.text ⟨.pra, 255#8⟩ = [255] := by decide
theorem test_text_of_pra : OutEvent.text ⟨.pra, 0x41#8⟩ = [65] := by decide

/-! ### Memory stays canonical -/

theorem test_writing_zero_removes_the_entry : (writeMem 0x90#8 0#8 (writeMem 0x90#8 7#8 base)).mem = [] := by decide
theorem test_writes_sort : (writeMem 0x10#8 1#8 (writeMem 0x90#8 7#8 base)).mem = [(0x10, 1#8), (0x90, 7#8)] := by decide
theorem test_wf_refuses_unsorted : Memory.wf [(5, 1#8), (5, 2#8)] = false := by decide
theorem test_wf_refuses_zero_entry : Memory.wf [(5, 0#8)] = false := by decide
theorem test_wf_refuses_address_256 : Memory.wf [(256, 1#8)] = false := by decide

/-! ### Witnesses: states and operands that meet the hypotheses of each statement, clause by clause -/

theorem test_witness_DecoderRejectsExactlyTheIllegalBytes :
    (0xC0#8 : Byte).toNat ≥ 0xC0 ∧ (0xFF#8 : Byte).toNat ≥ 0xC0 ∧
    (0xBF#8 : Byte).toNat < 0xC0 ∧ (0xBF#8 : Byte) ∉ definedOpcodeBytes := by decide

theorem test_witness_DecodeAndEncodeAgree :
    encode (.inc ⟨31#5, 7⟩) ++ [0xA0#8, 0#8] = 0x65#8 :: 0xFF#8 :: 0xA0#8 :: [0#8] ∧
    decode 0x65#8 0xFF#8 0xA0#8 = .instr (.inc ⟨31#5, 7⟩) := by decide

theorem test_witness_IgnoredBitsHaveNoEffect :
    decode 0xA0#8 0x09#8 0xFA#8 = .instr (.add ⟨1#5, 1⟩ ⟨31#5, 2⟩) ∧
    decode 0xA0#8 0x01#8 0x02#8 = .instr (.add ⟨0#5, 1⟩ ⟨0#5, 2⟩) ∧
    (operandCount 0xA0#8 ≥ 1 → (0x09#8 : Byte).toNat % 8 = (0x01#8 : Byte).toNat % 8) ∧
    (operandCount 0xA0#8 = 2 →
      if (0xA0#8 : Byte) = 0x82#8 then (0xFA#8 : Byte) = 0x02#8 else (0xFA#8 : Byte).toNat % 8 = (0x02#8 : Byte).toNat % 8) := by
  decide

theorem test_witness_WellFormedMeansCanonicalOperandBytes :
    decode 0xA0#8 0x07#8 0x08#8 = .instr (.add ⟨0#5, 7⟩ ⟨1#5, 0⟩) ∧ decode 0xA0#8 0x07#8 0x07#8 = .instr (.add ⟨0#5, 7⟩ ⟨0#5, 7⟩) := by
  decide

theorem test_witness_DivModTruncateOrFault :
    readReg (at20 [] 200#8 1#8) (RegOperand.reg 2).index ≠ 0#8 ∧
    readReg (at20 [] 200#8 0#8) (RegOperand.reg 2).index = 0#8 := by decide

/-- A state in which CAUSE holds UnsupportedOperation, which no run reaches. -/
def unsupported : State := raiseFault .unsupportedOperation base

theorem test_witness_OnlyAnUnrecognisedTagIsUnsupported :
    after unsupported = some unsupported ∧ unsupported.cause = some .unsupportedOperation := by decide

/-- A state that PUSH of R1 = 0xAB, or CALL of R1 at 0x20, can leave. -/
def pushed (v : Byte) : State := writeMem 0xF3#8 v (writeReg 7 0xF3#8 base)

theorem test_witness_PushDecrementsThenStores_and_PopLoadsThenIncrements :
    (RegOperand.reg 1).index ≠ 7 ∧ (RegOperand.reg 7).index = 7 := by decide

theorem test_witness_PushThenPopRoundTrips :
    (after (writeReg 1 0xAB#8 (withSp [0x45#8, 1#8] 0xF4#8))).map
      (fun t => (readReg t 7, readMem t (readReg t 7))) =
      some (readReg (pushed 0xAB#8) 7, readMem (pushed 0xAB#8) 0xF3#8) ∧
    (RegOperand.reg 2).index ≠ 7 ∧ (RegOperand.reg 1).index ≠ 7 := by decide

theorem test_witness_CallThenRetReturns :
    (after (writeReg 1 0x80#8 (withSp [0x50#8, 1#8] 0xF4#8))).map
      (fun t => (readReg t 7, readMem t (readReg t 7))) =
      some (readReg (pushed 0x22#8) 7, readMem (pushed 0x22#8) 0xF3#8) := by decide

theorem test_witness_ConditionalJumpsTestTheirFlags :
    (∃ f : Flags, f.E = true) ∧ (∃ f : Flags, ¬ f.E = true) ∧ (∃ f : Flags, f.G = true) ∧ (∃ f : Flags, ¬ f.G = true) ∧
    (∃ f : Flags, f.L = true) ∧ (∃ f : Flags, ¬ f.L = true) ∧ (∃ f : Flags, ¬ (f.G = true ∨ f.E = true)) ∧
    (∃ f : Flags, ¬ (f.L = true ∨ f.E = true)) :=
  ⟨⟨⟨true, false, false⟩, by decide⟩, ⟨⟨false, false, false⟩, by decide⟩, ⟨⟨false, false, true⟩, by decide⟩,
    ⟨⟨false, false, false⟩, by decide⟩, ⟨⟨false, true, false⟩, by decide⟩, ⟨⟨false, false, false⟩, by decide⟩,
    ⟨⟨false, false, false⟩, by decide⟩, ⟨⟨false, false, false⟩, by decide⟩⟩

/-- The base state with one instruction at the pc, R1 = 0x99, R2 = 1 and E set: it runs. -/
def running (bytes : List Byte) : State := setFlags ⟨true, false, false⟩ (at20 bytes 0x99#8 1#8)

theorem test_witness_StepRunsTheDecodedInstruction :
    (halt base).run ≠ .running ∧
    (running [0xA0#8, 1#8, 2#8]).run = .running ∧
    decode (readMem (running [0xA0#8, 1#8, 2#8]) 0x20#8) (readMem (running [0xA0#8, 1#8, 2#8]) 0x21#8)
      (readMem (running [0xA0#8, 1#8, 2#8]) 0x22#8) = .instr (.add ⟨0#5, 1⟩ ⟨0#5, 2⟩) ∧
    (running [0xFF#8]).run = .running ∧ opcodeAtPc (running [0xFF#8]) ∉ definedOpcodeBytes := by decide

theorem test_witness_RunStateChangesOnlyByHltAndFaults :
    (running [0x01#8]).run = .running ∧ opcodeAtPc (running [0x01#8]) = 0x01#8 ∧
    (after (running [0x01#8])).map State.run = some .halted ∧
    opcodeAtPc (running [0xC0#8]) ∉ definedOpcodeBytes ∧ (after (running [0xC0#8])).map State.run = some .faulted ∧
    opcodeAtPc (running [0xA3#8, 1#8, 3#8]) ∈ definedOpcodeBytes ∧
    readReg (running [0xA3#8, 1#8, 3#8]) (indexB (running [0xA3#8, 1#8, 3#8])) = 0#8 ∧
    (after (running [0xA3#8, 1#8, 3#8])).map State.run = some .faulted ∧
    (after (running [0xA4#8, 1#8, 3#8])).map State.run = some .faulted ∧
    (after (running [0xA3#8, 1#8, 2#8])).map State.run = some .running := by decide

theorem test_witness_FaultsArePrecise :
    (running [0xA4#8, 1#8, 3#8]).run = .running ∧
    (after (running [0xA4#8, 1#8, 3#8])).map State.run = some .faulted := by decide

theorem test_witness_OnlyCmpWritesFlags :
    (running [0xA7#8, 1#8, 2#8]).run = .running ∧ opcodeAtPc (running [0xA7#8, 1#8, 2#8]) = 0xA7#8 ∧
    (after (running [0xA7#8, 1#8, 2#8])).isSome = true ∧
    opcodeAtPc (running [0xA8#8, 1#8, 2#8]) ≠ 0xA7#8 ∧ (after (running [0xA8#8, 1#8, 2#8])).isSome = true := by decide

theorem test_witness_RegistersChangeOnlyAsListed :
    (running [0x65#8, 1#8]).run = .running ∧
    (after (running [0x65#8, 1#8])).map (fun t => readReg t 1) ≠ some (readReg (running [0x65#8, 1#8]) 1) ∧
    (after (running [0x11#8])).map (fun t => readReg t 7) ≠ some (readReg (running [0x11#8]) 7) := by decide

theorem test_witness_MemoryChangesOnlyAsListed :
    (running [0x84#8, 1#8, 2#8]).run = .running ∧
    (after (running [0x84#8, 1#8, 2#8])).map (fun t => readMem t 0x99#8) ≠ some (readMem (running [0x84#8, 1#8, 2#8]) 0x99#8) ∧
    (after (running [0x45#8, 1#8])).map (fun t => readMem t 0xF3#8) ≠ some (readMem (running [0x45#8, 1#8]) 0xF3#8) ∧
    (after (running [0x50#8, 1#8])).map (fun t => readMem t 0xF3#8) ≠ some (readMem (running [0x50#8, 1#8]) 0xF3#8) := by
  decide

theorem test_witness_PcMovesAsListed :
    (after (running [0x01#8])).map State.run ≠ some .running ∧
    (after (running [0x47#8, 1#8])).map State.run = some .running ∧ pcControl (opcodeAtPc (running [0x47#8, 1#8])) = false ∧
    ([0x50#8, 0x11#8, 0x54#8, 0x55#8, 0x56#8, 0x57#8, 0x58#8, 0x59#8, 0x5A#8] : List Byte).all (fun op =>
      decide ((running [op, 1#8]).run = .running) && decide (opcodeAtPc (running [op, 1#8]) = op) &&
      (after (running [op, 1#8])).isSome) = true := by decide

theorem test_witness_OutputIsAppendedAndNeverRead :
    (running [0x47#8, 1#8]).run = .running ∧
    ([0x47#8, 0x48#8, 0x49#8] : List Byte).all (fun op =>
      decide (opcodeAtPc (running [op, 1#8]) = op) && (after (running [op, 1#8])).isSome) = true := by decide

theorem test_witness_LatchesCarryNothingBetweenSteps : base.run = .running := by decide

/-- M8: ST of 0x01 into the next instruction. -/
def storeNext : State := at20 [0x84#8, 1#8, 2#8] 0x23#8 0x01#8

theorem test_witness_StoreIsSeenByTheNextFetch :
    storeNext.run = .running ∧ opcodeAtPc storeNext = 0x84#8 ∧ readReg storeNext (indexA storeNext) = storeNext.pc + 3#8 ∧
    (after storeNext).isSome = true ∧ readReg storeNext (indexB storeNext) = 0x01#8 := by decide

theorem test_witness_StepKeepsTheInvariant :
    State.Inv (running [0xA0#8, 1#8, 2#8]) ∧ (after (running [0xA0#8, 1#8, 2#8])).isSome = true :=
  ⟨⟨by decide, by decide, by decide, by decide⟩, by decide⟩

theorem test_witness_ResetAndLaunchHaveTheInvariant : Memory.wf (running [0xFF#8]).mem = true := by decide

theorem test_witness_FinishedRunsStayPut : State.over (halt base) ∧ State.over (raiseFault .divideByZero base) :=
  ⟨.inl rfl, .inr rfl⟩

theorem test_witness_ZeroedMemoryNeverStops : base.run = .running ∧ ∀ a, readMem base a = 0x00#8 :=
  ⟨rfl, fun _ => rfl⟩

theorem test_witness_JumpToItselfHangs :
    (at20 [0x54#8, 1#8] 0x20#8 0#8).run = .running ∧ opcodeAtPc (at20 [0x54#8, 1#8] 0x20#8 0#8) = 0x54#8 ∧
    readReg (at20 [0x54#8, 1#8] 0x20#8 0#8) (indexA (at20 [0x54#8, 1#8] 0x20#8 0#8)) = 0x20#8 := by decide

theorem test_witness_WithFetchWordRunsTheWord :
    decodeTableWord 24 0x0201A0 = some (.add ⟨0#5, 1⟩ ⟨0#5, 2⟩) ∧
    (after (State.reset.withFetchWord 16 0x0045)).map (fun t => readReg t 7) = some 0xF3#8 := by decide

end Sys2Proof.Tests
end

/-! PROOFS. The inversion of the step: what one instruction can do (`Effect`), and the statements about the state
that follow from it (spec/10_state.md). -/

namespace Sys2Proof

/-! ### Opcodes -/

/-- The ALU operation of an ALU instruction (`40_alu_arithmetic.md` R75). -/
def Op.aluOp? : Op → Option Machine.AluOp
  | .add => some .add
  | .sub => some .sub
  | .mul => some .mul
  | .div => some .div
  | .mod => some .mod
  | .inc => some .inc
  | .dec => some .dec
  | .and => some .and
  | .or => some .or
  | .xor => some .xor
  | .not => some .not
  | .shl => some .shl
  | .shr => some .shr
  | .cmp => some .cmp
  | _ => none

/-- The condition of a conditional jump (`46_control_flow.md` R166). -/
def Op.condition? : Op → Option (Machine.Flags → Bool)
  | .jeq => some Machine.condEq
  | .jne => some Machine.condNe
  | .jgt => some Machine.condGt
  | .jlt => some Machine.condLt
  | .jle => some Machine.condLe
  | .jge => some Machine.condGe
  | _ => none

/-- The length of an instruction, 1 + N, as the byte that the pc advances by (`42_dispatch.md` R107). -/
def Op.length (o : Op) : Byte :=
  BitVec.ofNat 8 (1 + operandCount o.byte)

@[simp] theorem Op.mem_all (o : Op) : o ∈ Op.all := by
  cases o <;> decide

theorem Op.toNat_add_length (o : Op) (pc : Addr) :
    (pc + o.length).toNat = (pc.toNat + 1 + operandCount o.byte) % 256 := by
  simp only [Op.length, BitVec.toNat_add, BitVec.toNat_ofNat]
  omega

/-- A conditional jump has bit 4 of its opcode byte set (`30_encoding.md` R63). -/
theorem Op.pcControl_of_condition {o : Op} {c : Machine.Flags → Bool} (h : o.condition? = some c) :
    pcControl o.byte = true := by
  cases o <;> cases h <;> rfl

end Sys2Proof

namespace Sys2Proof.Machine

theorem mem_definedOpcodeBytes {ir : Byte} : ir ∈ definedOpcodeBytes ↔ ∃ o : Op, ir = o.byte := by
  have table : definedOpcodeBytes = Op.all.map Op.byte := rfl
  simp [table, eq_comm]

@[simp] theorem byte_mem_definedOpcodeBytes (o : Op) : o.byte ∈ definedOpcodeBytes :=
  mem_definedOpcodeBytes.mpr ⟨o, rfl⟩

/-- An operand byte names the register of its low three bits (`30_encoding.md` R59). -/
theorem ofByte_index (A : Byte) : (RegOperand.ofByte A).index = Fin.ofNat 8 A.toNat :=
  Fin.ext (RegOperand.ofByte_index_val A)

/-! ### What the ALU answers -/

/-- A comparison sets exactly one flag (`41_alu_bitwise_compare.md` R98). -/
theorem compareFlags_sum (x y : Byte) :
    (compareFlags x y).E.toNat + (compareFlags x y).L.toNat + (compareFlags x y).G.toNat = 1 := by
  rcases compareFlags_cases x y with h | h | h <;> rw [h] <;> rfl

/-- A comparison sets at most one flag (`10_state.md` R23). -/
theorem compareFlags_atMostOne (x y : Byte) : (compareFlags x y).atMostOne := by
  rcases compareFlags_cases x y with h | h | h <;> rw [h] <;> decide

/-- Only CMP answers flags, those of the comparison. -/
theorem aluAnswer_eq_flags {k : AluOp} {x y : Byte} {f : Flags} (h : aluAnswer (.op k) x y = .flags f) :
    k = .cmp ∧ compareFlags x y = f := by
  cases k
  case cmp => exact ⟨rfl, AluAnswer.flags.inj h⟩
  case div | mod => simp only [aluAnswer] at h; split at h <;> cases h
  all_goals cases h

/-- Only DIV and MOD answer a fault, DivideByZero, and only for the divisor 0 (`60_exceptions.md` R177). -/
theorem aluAnswer_eq_fault {k : AluOp} {x y : Byte} {f : FaultKind} (h : aluAnswer (.op k) x y = .fault f) :
    (k = .div ∨ k = .mod) ∧ y = 0#8 ∧ f = .divideByZero := by
  cases k
  case div | mod =>
    simp only [aluAnswer] at h
    split at h
    · cases h; exact ⟨by simp, ‹_›, rfl⟩
    · cases h
  all_goals cases h

/-! ### What each instruction does -/

/-- An ALU instruction uses the ALU with its operation and its length. -/
theorem exec_of_aluOp {o : Op} {k : AluOp} (hk : o.aluOp? = some k) (A B : Byte) (s : State) :
    exec (o.instr A B) s = .next (useAlu (.op k) (.ofByte A) (.ofByte B) o.length s) := by
  cases o <;> cases hk <;> rfl

/-- A conditional jump tests its condition (`46_control_flow.md` R166). -/
theorem exec_of_condition {o : Op} {c : Flags → Bool} (hc : o.condition? = some c) (A B : Byte) (s : State) :
    exec (o.instr A B) s = .next (jumpIf (c s.flags) (.ofByte A) s) := by
  cases o <;> cases hc <;> rfl

/-- CALL, with its target read after SP was decremented (`46_control_flow.md` R156, R157). -/
theorem exec_call (a : RegOperand) (s : State) :
    exec (.call a) s = .next (setPc (if a.index = 7 then readReg s 7 - 1#8 else readReg s a.index)
      (writeMem (readReg s 7 - 1#8) (s.pc + 2#8) (writeReg 7 (readReg s 7 - 1#8) s))) := by
  simp only [exec, execCall, indirectAddr_eq, pushReturn_eq, readReg_writeMem, readReg_writeReg]

/-- What an instruction of opcode `o` does, with the register indices `a` and `b` of its operand bytes and the
immediate `imm`: the states `t` that it can make of `s`, case by case (`10_state.md` R16, R19, R22, R24). -/
inductive Effect (a b : RegIdx) (imm : Byte) (s : State) : Op → State → Prop
  | nop : Effect a b imm s .nop (advance Op.nop.length s)
  | hlt : Effect a b imm s .hlt (halt s)
  | compute {o : Op} {k : AluOp} {v : Byte} (hk : o.aluOp? = some k)
      (hv : aluAnswer (.op k) (readReg s a) (readReg s b) = .value v) :
      Effect a b imm s o (advance o.length (writeReg a v s))
  | divideByZero {o : Op} (ho : o = .div ∨ o = .mod) (hb : readReg s b = 0#8) :
      Effect a b imm s o (raiseFault .divideByZero s)
  | cmp : Effect a b imm s .cmp (advance Op.cmp.length (setFlags (compareFlags (readReg s a) (readReg s b)) s))
  | ldi : Effect a b imm s .ldi (advance Op.ldi.length (writeReg a imm s))
  | ld : Effect a b imm s .ld (advance Op.ld.length (writeReg a (readMem s (readReg s b)) s))
  | st : Effect a b imm s .st (advance Op.st.length (writeMem (readReg s a) (readReg s b) s))
  | prn : Effect a b imm s .prn (advance Op.prn.length (emit .prn (readReg s a) s))
  | pra : Effect a b imm s .pra (advance Op.pra.length (emit .pra (readReg s a) s))
  | push : Effect a b imm s .push (advance Op.push.length (writeMem (readReg s 7 - 1#8)
      (if a = 7 then readReg s 7 - 1#8 else readReg s a) (writeReg 7 (readReg s 7 - 1#8) s)))
  | pop : Effect a b imm s .pop (advance Op.pop.length
      (writeReg 7 ((if a = 7 then readMem s (readReg s 7) else readReg s 7) + 1#8)
        (writeReg a (readMem s (readReg s 7)) s)))
  | call : Effect a b imm s .call (setPc (if a = 7 then readReg s 7 - 1#8 else readReg s a)
      (writeMem (readReg s 7 - 1#8) (s.pc + 2#8) (writeReg 7 (readReg s 7 - 1#8) s)))
  | ret : Effect a b imm s .ret (writeReg 7 (readReg s 7 + 1#8) (setPc (readMem s (readReg s 7)) s))
  | jmp : Effect a b imm s .jmp (setPc (readReg s a) s)
  | jumpTaken {o : Op} {c : Flags → Bool} (hc : o.condition? = some c) (hf : c s.flags = true) :
      Effect a b imm s o (setPc (readReg s a) s)
  | jumpNotTaken {o : Op} {c : Flags → Bool} (hc : o.condition? = some c) (hf : c s.flags = false) :
      Effect a b imm s o (advance o.length s)

theorem effect_of_aluOp {o : Op} {k : AluOp} {A B : Byte} {s t : State} (hk : o.aluOp? = some k)
    (h : exec (o.instr A B) s = .next t) :
    Effect (RegOperand.ofByte A).index (RegOperand.ofByte B).index B s o t := by
  rw [exec_of_aluOp hk] at h
  obtain rfl := Host.Outcome.next.inj h
  cases hans : aluAnswer (.op k) (readReg s (RegOperand.ofByte A).index) (readReg s (RegOperand.ofByte B).index) with
  | value v =>
    rw [useAlu_of_value _ hans]
    exact .compute hk hans
  | flags f =>
    rw [useAlu_of_flags _ hans]
    obtain ⟨rfl, rfl⟩ := aluAnswer_eq_flags hans
    obtain rfl : o = .cmp := by
      cases o <;> cases hk
      rfl
    exact .cmp
  | fault f =>
    rw [useAlu_of_fault _ hans]
    obtain ⟨hdiv, hzero, rfl⟩ := aluAnswer_eq_fault hans
    have ho : o = .div ∨ o = .mod := by cases o <;> cases hk <;> simp at hdiv ⊢
    exact .divideByZero ho hzero

theorem effect_of_condition {o : Op} {c : Flags → Bool} {A B : Byte} {s t : State} (hc : o.condition? = some c)
    (h : exec (o.instr A B) s = .next t) :
    Effect (RegOperand.ofByte A).index (RegOperand.ofByte B).index B s o t := by
  rw [exec_of_condition hc] at h
  obtain rfl := Host.Outcome.next.inj h
  cases hf : c s.flags with
  | true => exact .jumpTaken hc hf
  | false =>
    have hlen : o.length = 2#8 := by cases o <;> cases hc <;> rfl
    rw [jumpIf_false, ← hlen]
    exact .jumpNotTaken hc hf

/-- What an instruction answers is one of its effects. -/
theorem effect_of_exec {o : Op} {A B : Byte} {s t : State} (h : exec (o.instr A B) s = .next t) :
    Effect (RegOperand.ofByte A).index (RegOperand.ofByte B).index B s o t := by
  cases o
  case add | sub | mul | div | mod | inc | dec | and | or | xor | not | shl | shr | cmp =>
    exact effect_of_aluOp rfl h
  case jeq | jne | jgt | jlt | jle | jge => exact effect_of_condition rfl h
  case call =>
    obtain rfl := Host.Outcome.next.inj ((exec_call _ s).symm.trans h)
    exact .call
  all_goals cases h
  case nop => exact .nop
  case hlt => exact .hlt
  case ldi => exact .ldi
  case ld => exact .ld
  case st => exact .st
  case prn => exact .prn
  case pra => exact .pra
  case push => rw [pushOperand_eq]; exact .push
  case pop => rw [popOperand_eq]; exact .pop
  case ret => exact .ret
  case jmp => exact .jmp


/-! ### What a step does -/

/-- In RUNNING, at the opcode byte of `o`, a step is `exec` of that instruction after the fetch
(`42_dispatch.md` R105). -/
theorem step_of_opcode {o : Op} {s : State} (hs : s.run = .running) (ho : opcodeAtPc s = o.byte) :
    step s = exec (o.instr (readMem s (s.pc + 1#8)) (readMem s (s.pc + 2#8))) (fetch s) := by
  rw [step_of_running hs]
  exact dispatch_of_instr (decode_eq_instr.mpr ⟨o, ho, rfl⟩)

/-- In RUNNING, at a byte that is no opcode, a step raises IllegalInstruction (`42_dispatch.md` R111). -/
theorem step_of_illegal {s : State} (hs : s.run = .running) (ho : opcodeAtPc s ∉ definedOpcodeBytes) :
    step s = .next (raiseFault .illegalInstruction (fetch s)) := by
  obtain ⟨why, hwhy⟩ : ∃ why, decode (fetch s).ir (fetch s).opA (fetch s).opB = .illegal why :=
    decode_illegal_iff.mpr fun o e => ho (mem_definedOpcodeBytes.mpr ⟨o, e⟩)
  rw [step_of_running hs, dispatch_of_illegal hwhy]

/-- Everything a step in RUNNING can do: it raises IllegalInstruction at a byte that is no opcode, or has an effect
of the instruction at the pc. -/
theorem step_cases {s t : State} (hs : s.run = .running) (h : step s = .next t) :
    (opcodeAtPc s ∉ definedOpcodeBytes ∧ t = raiseFault .illegalInstruction (fetch s)) ∨
      ∃ o : Op, opcodeAtPc s = o.byte ∧
        Effect (indexA s) (indexB s) (readMem s (s.pc + 2#8)) (fetch s) o t := by
  by_cases hop : opcodeAtPc s ∈ definedOpcodeBytes
  · obtain ⟨o, ho⟩ := mem_definedOpcodeBytes.mp hop
    have he := effect_of_exec ((step_of_opcode hs ho).symm.trans h)
    rw [ofByte_index, ofByte_index] at he
    exact .inr ⟨o, ho, he⟩
  · rw [step_of_illegal hs hop] at h
    exact .inl ⟨hop, (Host.Outcome.next.inj h).symm⟩

/-- The pc after a conditional jump (`46_control_flow.md` R166). -/
theorem pc_of_condition {s t : State} {o : Op} {c : Flags → Bool} (hc : o.condition? = some c)
    (hs : s.run = .running) (h : step s = .next t) (ho : opcodeAtPc s = o.byte) :
    t.pc = if c s.flags then readReg s (indexA s) else s.pc + 2#8 := by
  rw [step_of_opcode hs ho, exec_of_condition hc] at h
  obtain rfl := Host.Outcome.next.inj h
  cases hf : c s.flags <;> simp [hf, jumpIf_true, jumpIf_false, ofByte_index, indexA]

/-! ### What each effect changes and keeps -/

section
variable {a b : RegIdx} {imm : Byte} {s t : State} {o : Op}

/-- HLT halts, a zero divisor faults, and every other effect keeps RUN and CAUSE (`10_state.md` R24). -/
theorem Effect.run_cause_cases (h : Effect a b imm s o t) :
    (o = .hlt ∧ t = halt s) ∨
    ((o = .div ∨ o = .mod) ∧ readReg s b = 0#8 ∧ t = raiseFault .divideByZero s) ∨
    (o ≠ .hlt ∧ ¬((o = .div ∨ o = .mod) ∧ readReg s b = 0#8) ∧ t.run = s.run ∧ t.cause = s.cause) := by
  cases h with
  | hlt => exact .inl ⟨rfl, rfl⟩
  | divideByZero ho hb => exact .inr (.inl ⟨ho, hb, rfl⟩)
  | compute hk hv =>
    refine .inr (.inr ⟨?_, ?_, rfl, rfl⟩)
    · rintro rfl
      cases hk
    · rintro ⟨rfl | rfl, hb⟩ <;> cases hk <;> rw [hb] at hv <;> cases hv
  | jumpTaken hc _ | jumpNotTaken hc _ =>
    refine .inr (.inr ⟨?_, ?_, rfl, rfl⟩)
    · rintro rfl
      cases hc
    · rintro ⟨rfl | rfl, -⟩ <;> cases hc
  | _ => exact .inr (.inr ⟨by simp, by simp, rfl, rfl⟩)

/-- Every effect but CMP's keeps the flags (`10_state.md` R22). -/
theorem Effect.flags_eq (h : Effect a b imm s o t) (ho : o ≠ .cmp) : t.flags = s.flags := by
  cases h with
  | cmp => exact absurd rfl ho
  | _ => rfl

/-- The opcodes of the instructions that write `x[a]` (`10_state.md` R16). -/
def writesA : List Op :=
  [.add, .sub, .mul, .div, .mod, .and, .or, .xor, .shl, .shr, .inc, .dec, .not, .ldi, .ld, .pop]

/-- The opcodes of the instructions that move SP (`10_state.md` R16). -/
def movesSp : List Op :=
  [.push, .pop, .call, .ret]

/-- An ALU instruction whose operation answers a value writes it to `x[a]`. -/
theorem mem_writesA_of_value {k : AluOp} {x y v : Byte} (hk : o.aluOp? = some k)
    (hv : aluAnswer (.op k) x y = .value v) : o ∈ writesA := by
  cases o <;> cases hk
  case cmp => cases hv
  all_goals decide

/-- Which registers an effect can change (`10_state.md` R16). -/
theorem Effect.register_changed (h : Effect a b imm s o t) {r : RegIdx} (hr : readReg t r ≠ readReg s r) :
    (r = a ∧ o ∈ writesA) ∨ (r = 7 ∧ o ∈ movesSp) := by
  by_contra hno
  rw [not_or, not_and, not_and] at hno
  obtain ⟨hA, hSp⟩ := hno
  have keptA (ho : o ∈ writesA) (v : Byte) (u : State) : readReg (writeReg a v u) r = readReg u r :=
    readReg_writeReg_of_ne (fun e => hA e ho) v u
  have keptSp (ho : o ∈ movesSp) (v : Byte) (u : State) : readReg (writeReg 7 v u) r = readReg u r :=
    readReg_writeReg_of_ne (fun e => hSp e ho) v u
  apply hr
  cases h with
  | compute hk hv => exact keptA (mem_writesA_of_value hk hv) _ _
  | ldi | ld => exact keptA (by decide) _ _
  | pop => exact (keptSp (by decide) _ _).trans (keptA (by decide) _ _)
  | push | call | ret => exact keptSp (by decide) _ _
  | _ => rfl

/-- An effect that leaves RUN other than it was, HLT's or a fault, keeps the pc (`10_state.md` R19). -/
theorem Effect.pc_of_stop (h : Effect a b imm s o t) (hrun : t.run ≠ s.run) : t.pc = s.pc := by
  rcases h.run_cause_cases with ⟨-, rfl⟩ | ⟨-, -, rfl⟩ | ⟨-, -, hkept, -⟩
  · rfl
  · rfl
  · exact absurd hkept hrun

/-- With bit 4 of the opcode clear, an effect that does not stop the machine moves the pc past the instruction
(`42_dispatch.md` R107). -/
theorem Effect.pc_of_not_control (h : Effect a b imm s o t) (ht : t.run = .running)
    (ho : pcControl o.byte = false) : t.pc = s.pc + o.length := by
  cases h with
  | hlt | divideByZero => cases ht
  | call | ret | jmp => cases ho
  | jumpTaken hc _ => simp [Op.pcControl_of_condition hc] at ho
  | _ => rfl

end

/-! ### The invariant: one rule per operation -/

section
variable {s : State}

theorem State.Inv.fetch (h : s.Inv) : (fetch s).Inv := { h with }

theorem State.Inv.writeReg (h : s.Inv) (i : RegIdx) (v : Byte) : (writeReg i v s).Inv := { h with }

theorem State.Inv.setPc (h : s.Inv) (pc : Addr) : (setPc pc s).Inv := { h with }

theorem State.Inv.advance (h : s.Inv) (n : Byte) : (advance n s).Inv := h.setPc _

theorem State.Inv.emit (h : s.Inv) (k : OutKind) (v : Byte) : (emit k v s).Inv := { h with }

theorem State.Inv.writeMem (h : s.Inv) (w : Addr) (v : Byte) : (writeMem w v s).Inv :=
  { h with memory := wf_writeMem w v h.memory }

theorem State.Inv.setFlags (h : s.Inv) {f : Flags} (hf : f.atMostOne) : (setFlags f s).Inv :=
  { h with flags := hf }

theorem State.Inv.halt (h : s.Inv) (hs : s.run = .running) : (halt s).Inv :=
  { h with cause_iff_faulted := by simpa [hs] using h.cause_iff_faulted }

theorem State.Inv.raiseFault (h : s.Inv) {f : FaultKind} (hf : f ≠ .unsupportedOperation) :
    (raiseFault f s).Inv :=
  { h with
    cause_iff_faulted := by simp
    cause_supported := by simpa using hf }

end

/-- Every effect of an instruction on a running state keeps the invariant. -/
theorem Effect.inv {a b : RegIdx} {imm : Byte} {s t : State} {o : Op} (h : Effect a b imm s o t)
    (hs : s.run = .running) (hI : s.Inv) : t.Inv := by
  cases h with
  | nop | jumpNotTaken => exact hI.advance _
  | hlt => exact hI.halt hs
  | compute | ldi | ld => exact (hI.writeReg _ _).advance _
  | divideByZero => exact hI.raiseFault (by decide)
  | cmp => exact (hI.setFlags (compareFlags_atMostOne _ _)).advance _
  | st => exact (hI.writeMem _ _).advance _
  | prn | pra => exact (hI.emit _ _).advance _
  | push => exact ((hI.writeReg _ _).writeMem _ _).advance _
  | pop => exact ((hI.writeReg _ _).writeReg _ _).advance _
  | call => exact ((hI.writeReg _ _).writeMem _ _).setPc _
  | ret => exact (hI.setPc _).writeReg _ _
  | jmp | jumpTaken => exact hI.setPc _

/-! ### The obligations -/

/-- Settles O39: one rule per operation, over the effects of the step. -/
theorem stepKeepsTheInvariant : Obligations.StepKeepsTheInvariant := by
  intro s t hI h
  by_cases hs : s.run = .running
  · rcases step_cases hs h with ⟨-, rfl⟩ | ⟨o, -, he⟩
    · exact hI.fetch.raiseFault (by decide)
    · exact he.inv hs hI.fetch
  · rw [step_of_not_running hs] at h
    exact Host.Outcome.next.inj h ▸ hI

/-- Settles O30: HLT, the faults and all other effects are the three cases of `Effect.run_cause_cases`. -/
theorem runStateChangesOnlyByHltAndFaults : Obligations.RunStateChangesOnlyByHltAndFaults := by
  intro s t hs h
  rcases step_cases hs h with ⟨hill, rfl⟩ | ⟨o, ho, he⟩
  · have hne : opcodeAtPc s ≠ 0x01#8 := fun e => hill (e ▸ by decide)
    simp [hill, hne]
  · have opcode_iff (p : Op) : o.byte = p.byte ↔ o = p := Op.byte_injective.eq_iff
    have hhlt : opcodeAtPc s = 0x01#8 ↔ o = .hlt := ho ▸ opcode_iff .hlt
    have hdiv : opcodeAtPc s = 0xA3#8 ↔ o = .div := ho ▸ opcode_iff .div
    have hmod : opcodeAtPc s = 0xA4#8 ↔ o = .mod := ho ▸ opcode_iff .mod
    have hdef : opcodeAtPc s ∈ definedOpcodeBytes := ho ▸ byte_mem_definedOpcodeBytes o
    rw [hhlt, hdiv, hmod]
    rcases he.run_cause_cases with ⟨rfl, rfl⟩ | ⟨hdm, hzero, rfl⟩ | ⟨hnhlt, hndiv, hrun, hcause⟩
    · simp [hdef]
    · have hnhlt : o ≠ .hlt := by rcases hdm with rfl | rfl <;> decide
      rw [readReg_fetch] at hzero
      simp [hdef, hdm, hzero, hnhlt]
    · rw [readReg_fetch] at hndiv
      simp [hdef, hrun, hcause, hs, hnhlt, hndiv]

/-- Settles O32: only CMP's effect writes the flags, and a comparison sets exactly one. -/
theorem onlyCmpWritesFlags : Obligations.OnlyCmpWritesFlags := by
  intro s t hs h
  constructor
  · intro hne
    rcases step_cases hs h with ⟨-, rfl⟩ | ⟨o, ho, he⟩
    · rfl
    · refine he.flags_eq ?_
      rintro rfl
      exact hne ho
  · intro hcmp
    rw [step_of_opcode (o := .cmp) hs hcmp] at h
    obtain rfl := Host.Outcome.next.inj h
    exact compareFlags_sum _ _

/-- Settles O33, by the registers that the effect of the step can change. -/
theorem registersChangeOnlyAsListed : Obligations.RegistersChangeOnlyAsListed := by
  intro s t r hs h hr
  rcases step_cases hs h with ⟨-, rfl⟩ | ⟨o, ho, he⟩
  · exact absurd rfl hr
  · rw [ho]
    rcases he.register_changed hr with ⟨hra, hop⟩ | ⟨hr7, hop⟩
    · exact .inl ⟨hra, List.mem_map_of_mem (f := Op.byte) hop⟩
    · exact .inr ⟨hr7, List.mem_map_of_mem (f := Op.byte) hop⟩

/-- Settles O35: the stops and the opcodes with bit 4 clear by the effects, each control transfer by its meaning. -/
theorem pcMovesAsListed : Obligations.PcMovesAsListed := by
  intro s t hs h
  have exec_next {o : Op} (ho : opcodeAtPc s = o.byte) :
      exec (o.instr (readMem s (s.pc + 1#8)) (readMem s (s.pc + 2#8))) (fetch s) = .next t :=
    (step_of_opcode hs ho).symm.trans h
  refine ⟨fun hstop => ?_, fun hrun hctl => ?_, fun hcall => ?_, fun hret => ?_, fun hjmp => ?_,
    pc_of_condition (o := .jeq) rfl hs h, fun hjne => ?_, pc_of_condition (o := .jgt) rfl hs h,
    pc_of_condition (o := .jlt) rfl hs h, pc_of_condition (o := .jle) rfl hs h,
    pc_of_condition (o := .jge) rfl hs h⟩
  · rcases step_cases hs h with ⟨-, rfl⟩ | ⟨o, -, he⟩
    · rfl
    · exact he.pc_of_stop fun e => hstop (e.trans hs)
  · rcases step_cases hs h with ⟨-, rfl⟩ | ⟨o, ho, he⟩
    · cases hrun
    · rw [ho] at hctl ⊢
      rw [he.pc_of_not_control hrun hctl, Op.toNat_add_length, fetch_pc]
  · have hexec := exec_next (o := .call) hcall
    rw [Op.instr, exec_call, ofByte_index] at hexec
    obtain rfl := Host.Outcome.next.inj hexec
    rfl
  · obtain rfl := Host.Outcome.next.inj (exec_next (o := .ret) hret)
    rfl
  · obtain rfl := Host.Outcome.next.inj (exec_next (o := .jmp) hjmp)
    simp [ofByte_index, indexA]
  · rw [pc_of_condition (o := .jne) rfl hs h hjne]
    cases hE : s.flags.E <;> simp [condNe, hE]

/-- Settles O37: the fetch overwrites all three latches. -/
theorem latchesCarryNothingBetweenSteps : Obligations.LatchesCarryNothingBetweenSteps := by
  intro s ir A B hs
  have hfetch : fetch { s with ir := ir, opA := A, opB := B } = fetch s := rfl
  rw [step_of_running hs, step_of_running (s := { s with ir := ir, opA := A, opB := B }) hs, hfetch]

/-- Settles O45: the codes by the definitions, the byte for each of the eight flag values. -/
theorem observerCodes : Obligations.ObserverCodes := by
  refine ⟨rfl, rfl, rfl, rfl, rfl, rfl, rfl, ?_⟩
  rintro ⟨E, L, G⟩
  revert E L G
  decide

end Sys2Proof.Machine

/-! PROOFS. The statements about memory (spec/20_memory.md): which effect changes which cell, and a store that the
next step fetches. -/

namespace Sys2Proof.Machine

/-- A write to memory changes only the cell at its address (`20_memory.md` R41). -/
theorem eq_of_readMem_writeMem_ne {a b : Addr} {v : Byte} {s : State}
    (h : readMem (writeMem a v s) b ≠ readMem s b) : b = a :=
  not_imp_comm.mp (readMem_writeMem_of_ne · v s) h

/-- Which cells an effect can change: the one at `x[a]` in ST, the one at SP - 1 in PUSH and CALL
(`20_memory.md` R36). -/
theorem Effect.cell_changed {a b : RegIdx} {imm : Byte} {s t : State} {o : Op} (h : Effect a b imm s o t)
    {w : Addr} (hw : readMem t w ≠ readMem s w) :
    (o = .st ∧ w = readReg s a) ∨ ((o = .push ∨ o = .call) ∧ w = readReg s 7 - 1#8) := by
  cases h with
  | st => exact .inl ⟨rfl, eq_of_readMem_writeMem_ne hw⟩
  | push => exact .inr ⟨.inl rfl, eq_of_readMem_writeMem_ne hw⟩
  | call => exact .inr ⟨.inr rfl, eq_of_readMem_writeMem_ne hw⟩
  | _ => exact absurd rfl hw

/-- A step at the opcode byte of ST (`43_data_movement.md` R127). -/
theorem step_of_st {s : State} (hs : s.run = .running) (ho : opcodeAtPc s = Op.st.byte) :
    step s = .next (advance 3#8 (writeMem (readReg s (indexA s)) (readReg s (indexB s)) (fetch s))) := by
  simp [step_of_opcode hs ho, Op.instr, exec, execSt, ofByte_index, indexA, indexB]

/-- A step at the opcode byte of HLT (`42_dispatch.md` R109). -/
theorem step_of_hlt {s : State} (hs : s.run = .running) (ho : opcodeAtPc s = Op.hlt.byte) :
    step s = .next (halt (fetch s)) :=
  step_of_opcode hs ho

/-- Settles O34, by the cells that the effect of the step can change. -/
theorem memoryChangesOnlyAsListed : Obligations.MemoryChangesOnlyAsListed := by
  intro s t w hs h hw
  rcases step_cases hs h with ⟨-, rfl⟩ | ⟨o, ho, he⟩
  · exact absurd rfl hw
  · rw [ho]
    rcases he.cell_changed hw with ⟨rfl, haddr⟩ | ⟨rfl | rfl, haddr⟩
    · exact .inl ⟨rfl, haddr⟩
    · exact .inr ⟨.inl rfl, haddr⟩
    · exact .inr ⟨.inr rfl, haddr⟩

/-- Settles O38: ST leaves the pc at the cell it wrote, and the next step starts by fetching that cell. -/
theorem storeIsSeenByTheNextFetch : Obligations.StoreIsSeenByTheNextFetch := by
  intro s t hs hst haddr h
  rw [step_of_st hs hst, haddr] at h
  obtain rfl := Host.Outcome.next.inj h
  have stored : opcodeAtPc (advance 3#8 (writeMem (s.pc + 3#8) (readReg s (indexB s)) (fetch s))) =
      readReg s (indexB s) :=
    readMem_writeMem_same _ _ _
  exact ⟨stored, fun hhlt => ⟨_, step_of_hlt hs (stored.trans hhlt), rfl, rfl⟩⟩

end Sys2Proof.Machine

/-! PROOFS. The statements about the encoding (spec/30_encoding.md): the round trip of decoder and encoder, what the
meaning of an instruction reads of its bytes, and the opcode map. -/

namespace Sys2Proof

/-! ### The bytes of an instruction -/

/-- The operand bytes of what an opcode and two bytes decode to are the first N of the two
(`30_encoding.md` R55, R57). -/
theorem Op.operandBytes_instr (o : Op) (A B : Byte) :
    (o.instr A B).operandBytes = [A, B].take (operandCount o.byte) := by
  cases o <;> simp [Op.instr, Instr.operandBytes, Op.byte, operandCount]

/-- Bytes that start with the operand bytes of an instruction give it back under its opcode (`30_encoding.md` R57). -/
theorem Instr.instr_op_of_operandBytes {i : Instr} {rest tail : List Byte} {A B : Byte}
    (h : i.operandBytes ++ rest = A :: B :: tail) : i.op.instr A B = i := by
  cases i
  case nop | hlt | ret => rfl
  case ldi a imm =>
    obtain ⟨rfl, rfl, -⟩ : a.toByte = A ∧ imm = B ∧ rest = tail := by simpa [Instr.operandBytes] using h
    simp [Instr.op, Op.instr]
  case push a | pop a | prn a | pra a | call a | jmp a | jeq a | jne a | jgt a | jlt a | jle a | jge a | inc a | dec a
      | not a =>
    obtain ⟨rfl, -⟩ : a.toByte = A ∧ rest = B :: tail := by simpa [Instr.operandBytes] using h
    simp [Instr.op, Op.instr]
  case ld a b | st a b | add a b | sub a b | mul a b | div a b | mod a b | cmp a b | and a b | or a b | xor a b
      | shl a b | shr a b =>
    obtain ⟨rfl, rfl, -⟩ : a.toByte = A ∧ b.toByte = B ∧ rest = tail := by simpa [Instr.operandBytes] using h
    simp [Instr.op, Op.instr]

/-- An instruction of format Z has no operand: it is the same whatever the two bytes (`30_encoding.md` R61). -/
theorem Op.instr_of_operandCount_zero {o : Op} (h : operandCount o.byte = 0) (A B A' B' : Byte) :
    o.instr A B = o.instr A' B' := by
  cases o
  case nop | hlt | ret => rfl
  all_goals exact absurd h (by decide)

/-- An instruction without two operand bytes is the same whatever the second byte (`30_encoding.md` R61). -/
theorem Op.instr_of_operandCount_ne_two {o : Op} (h : operandCount o.byte ≠ 2) (A B B' : Byte) :
    o.instr A B = o.instr A B' := by
  cases o
  case ldi | ld | st | add | sub | mul | div | mod | cmp | and | or | xor | shl | shr => exact absurd rfl h
  all_goals rfl

/-! ### Canonical operand bytes -/

/-- A register operand byte is canonical exactly below 8 (`30_encoding.md` R70). -/
@[simp] theorem RegOperand.canonical_ofByte (A : Byte) : (RegOperand.ofByte A).canonical = true ↔ A.toNat < 8 := by
  revert A
  decide

/-- The well-formedness of a decoded instruction, in terms of the bytes it was decoded from (`30_encoding.md` R70). -/
theorem Op.wellFormed_instr (o : Op) (A B : Byte) :
    (o.instr A B).wellFormed = true ↔
      (operandCount o.byte ≥ 1 → A.toNat < 8) ∧ (operandCount o.byte = 2 → o.byte ≠ 0x82#8 → B.toNat < 8) := by
  cases o <;> simp [Op.instr, Instr.wellFormed, Op.byte, operandCount]

/-! ### The opcode byte -/

/-- Bits 7:6 of a byte are 3 exactly from 0xC0 on (`30_encoding.md` R66). -/
theorem operandCount_eq_three {ir : Byte} : operandCount ir = 3 ↔ ir.toNat ≥ 0xC0 := by
  have := ir.isLt
  simp only [operandCount, BitVec.extractLsb'_toNat, Nat.shiftRight_eq_div_pow]
  omega

end Sys2Proof

namespace Sys2Proof.Machine

/-- Every opcode byte is below 0xC0 (`30_encoding.md` R66). -/
theorem toNat_lt_of_mem_definedOpcodeBytes {ir : Byte} (h : ir ∈ definedOpcodeBytes) : ir.toNat < 0xC0 := by
  have below : ∀ b ∈ definedOpcodeBytes, b.toNat < 0xC0 := by decide
  exact below ir h

/-- What the decoder answers on a byte that is no opcode (`30_encoding.md` R65, R66). -/
theorem decode_of_not_mem_definedOpcodeBytes {ir : Byte} (h : ir ∉ definedOpcodeBytes) (A B : Byte) :
    decode ir A B = .illegal (if operandCount ir = 3 then .threeOperandBytes ir else .unassignedOpcode ir) := by
  have hnone : Op.ofByte? ir = none :=
    Op.ofByte?_eq_none.mpr fun o e => h (mem_definedOpcodeBytes.mpr ⟨o, e⟩)
  simp [decode, hnone]

/-! ### What the meaning of an instruction reads of its bytes -/

/-- Of a register operand byte A the meaning reads the index alone (`30_encoding.md` R59). -/
theorem exec_instr_of_index_left {A A' : Byte} (h : (RegOperand.ofByte A).index = (RegOperand.ofByte A').index)
    (o : Op) (B : Byte) (s : State) : exec (o.instr A B) s = exec (o.instr A' B) s := by
  unfold Op.instr
  generalize RegOperand.ofByte A = a, RegOperand.ofByte A' = a' at h
  obtain ⟨spare, index⟩ := a
  obtain ⟨spare', index'⟩ := a'
  obtain rfl : index = index' := h
  cases o <;> rfl

/-- Of a register operand byte B the meaning reads the index alone; LDI alone has another B
(`30_encoding.md` R59, R60). -/
theorem exec_instr_of_index_right {B B' : Byte} (h : (RegOperand.ofByte B).index = (RegOperand.ofByte B').index)
    {o : Op} (ho : o ≠ .ldi) (A : Byte) (s : State) : exec (o.instr A B) s = exec (o.instr A B') s := by
  unfold Op.instr
  generalize RegOperand.ofByte B = b, RegOperand.ofByte B' = b' at h
  obtain ⟨spare, index⟩ := b
  obtain ⟨spare', index'⟩ := b'
  obtain rfl : index = index' := h
  cases o
  case ldi => exact absurd rfl ho
  all_goals rfl

/-- Two bytes that agree in bits 2:0 name the same register (`30_encoding.md` R59). -/
theorem ofByte_index_eq_of_mod {A A' : Byte} (h : A.toNat % 8 = A'.toNat % 8) :
    (RegOperand.ofByte A).index = (RegOperand.ofByte A').index :=
  Fin.ext (by simpa using h)

/-- Byte A has no effect beyond its operand bits (`30_encoding.md` R59, R61). -/
theorem exec_instr_congr_left {o : Op} {A A' : Byte} (h : operandCount o.byte ≥ 1 → A.toNat % 8 = A'.toNat % 8)
    (B : Byte) (s : State) : exec (o.instr A B) s = exec (o.instr A' B) s := by
  by_cases hcount : operandCount o.byte = 0
  · rw [Op.instr_of_operandCount_zero hcount A B A' B]
  · exact exec_instr_of_index_left (ofByte_index_eq_of_mod (h (by omega))) o B s

/-- Byte B has no effect beyond its operand bits (`30_encoding.md` R59, R60, R61). -/
theorem exec_instr_congr_right {o : Op} {B B' : Byte}
    (h : operandCount o.byte = 2 → if o.byte = 0x82#8 then B = B' else B.toNat % 8 = B'.toNat % 8)
    (A : Byte) (s : State) : exec (o.instr A B) s = exec (o.instr A B') s := by
  by_cases hcount : operandCount o.byte = 2
  · by_cases hldi : o = .ldi
    · subst hldi
      obtain rfl : B = B' := h rfl
      rfl
    · have hbyte : o.byte ≠ 0x82#8 := fun e => hldi (Op.byte_injective e)
      have hmod := h hcount
      rw [if_neg hbyte] at hmod
      exact exec_instr_of_index_right (ofByte_index_eq_of_mod hmod) hldi A s
  · rw [Op.instr_of_operandCount_ne_two hcount A B B']

/-! ### The statements -/

/-- Settles O6: an instruction is its opcode's, read off its own operand bytes, and those are the bytes read. -/
theorem decodeAndEncodeAgree : Obligations.DecodeAndEncodeAgree := by
  constructor
  · intro i rest tail ir A B h
    obtain ⟨hir, hbytes⟩ := List.cons.inj h
    exact decode_eq_instr.mpr ⟨i.op, hir.symm, Instr.instr_op_of_operandBytes hbytes⟩
  · intro ir A B i h
    obtain ⟨o, rfl, rfl⟩ := decode_eq_instr.mp h
    rw [encode, Op.op_instr, Op.operandBytes_instr, Nat.add_comm, List.take_succ_cons]

/-- Settles O7, one operand byte at a time. -/
theorem ignoredBitsHaveNoEffect : Obligations.IgnoredBitsHaveNoEffect := by
  intro ir A B A' B' i j s hi hj hA hB
  obtain ⟨o, rfl, rfl⟩ := decode_eq_instr.mp hi
  obtain rfl := Decoded.instr.inj ((decode_byte o A' B').symm.trans hj)
  calc exec (o.instr A B) s
      = exec (o.instr A' B) s := exec_instr_congr_left hA B s
    _ = exec (o.instr A' B') s := exec_instr_congr_right hB A' s

/-- Settles O8, by the opcode of the decoded instruction. -/
theorem wellFormedMeansCanonicalOperandBytes : Obligations.WellFormedMeansCanonicalOperandBytes := by
  intro ir A B i h
  obtain ⟨o, rfl, rfl⟩ := decode_eq_instr.mp h
  exact o.wellFormed_instr A B

/-- Settles O3: the map is injective, and the fields of its 32 bytes are checked one by one. -/
theorem opcodeBytesMeetTheFieldRules : Obligations.OpcodeBytesMeetTheFieldRules := by
  refine ⟨fun _ _ h => Op.byte_injective h, fun o => ?operandCounts, fun o => ?controlTransfers, by decide⟩
  case operandCounts => cases o <;> rfl
  case controlTransfers => cases o <;> decide

/-- Settles O4: a byte that is no opcode is rejected, under the name that its bits 7:6 choose. -/
theorem decoderRejectsExactlyTheIllegalBytes : Obligations.DecoderRejectsExactlyTheIllegalBytes := by
  refine ⟨fun ir A B => ?_, fun ir A B hge => ?_, fun ir A B hlt hir => ?_, by decide, rfl⟩
  · rw [decode_illegal_iff, mem_definedOpcodeBytes, not_exists]
  · have hir : ir ∉ definedOpcodeBytes := fun h => absurd (toNat_lt_of_mem_definedOpcodeBytes h) (by omega)
    rw [decode_of_not_mem_definedOpcodeBytes hir, if_pos (operandCount_eq_three.mpr hge)]
  · have hcount : operandCount ir ≠ 3 := fun h => absurd (operandCount_eq_three.mp h) (by omega)
    rw [decode_of_not_mem_definedOpcodeBytes hir, if_neg hcount]

/-- Settles O5: each word starts with the byte of its opcode, and its operand bytes are taken apart by evaluation. -/
theorem writtenWordsDecode : Obligations.WrittenWordsDecode :=
  ⟨decode_byte .nop _ _, decode_byte .hlt _ _, decode_byte .add _ _, decode_byte .inc _ _, decode_byte .shr _ _,
    decode_byte .cmp _ _, decode_byte .ldi _ _, decode_byte .st _ _, decode_byte .prn _ _, decode_byte .push _ _,
    decode_byte .call _ _, decode_byte .ret _ _, decode_byte .jge _ _⟩

end Sys2Proof.Machine

/-! PROOFS. The arithmetic of the ALU (spec/40_alu_arithmetic.md): an ALU instruction that answers a value writes it
to x[a] and moves the pc, and keeps all else; and which fault the ALU can raise. -/

namespace Sys2Proof.Machine

/-! ### Opcode bytes of the formats RR and R -/

/-- The opcode byte of a format RR opcode encodes its instruction (`30_encoding.md` R57, R59). -/
theorem encodesRR_byte {o : Op} {mk : RegOperand → RegOperand → Instr}
    (h : ∀ A B, o.instr A B = mk (.ofByte A) (.ofByte B)) : EncodesRR o.byte mk :=
  fun A B => ⟨.ofByte A, .ofByte B, (decode_byte o A B).trans (congrArg _ (h A B)),
    RegOperand.ofByte_index_val A, RegOperand.ofByte_index_val B⟩

/-- The opcode byte of a format R opcode encodes its instruction (`30_encoding.md` R57, R59). -/
theorem encodesR_byte {o : Op} {mk : RegOperand → Instr}
    (h : ∀ A B, o.instr A B = mk (.ofByte A)) : EncodesR o.byte mk :=
  fun A B => ⟨.ofByte A, (decode_byte o A B).trans (congrArg _ (h A B)), RegOperand.ofByte_index_val A⟩

/-! ### An ALU instruction that answers a value -/

/-- From `s`, the instruction `i` of `n` bytes completes with `result` in register `r`, and changes nothing else but
the pc: the common part of `ComputesRR`, `ComputesR` and `DividesOrFaults`. -/
def WritesResult (i : Instr) (r : RegIdx) (result n : Nat) (s : State) : Prop :=
  ∃ t, exec i s = .next t ∧ (readReg t r).toNat = result ∧ t.pc.toNat = (s.pc.toNat + n) % 256 ∧
    KeepsRegsBut [r] s t ∧ KeepsFlags s t ∧ KeepsControl s t ∧ KeepsMem s t ∧ KeepsOut s t

/-- A use of the ALU that answers `v` writes `v` to x[a] (`40_alu_arithmetic.md` R75, R85). -/
theorem writesResult_of_value {i : Instr} {tag : AluTag} {a b : RegOperand} {n v : Byte} {s : State}
    (hexec : exec i s = .next (useAlu tag a b n s))
    (hvalue : aluAnswer tag (readReg s a.index) (readReg s b.index) = .value v) :
    WritesResult i a.index v.toNat n.toNat s := by
  rw [useAlu_of_value n hvalue] at hexec
  have otherRegs : KeepsRegsBut [a.index] s (advance n (writeReg a.index v s)) :=
    fun r hr => readReg_writeReg_of_ne (fun e => hr (by simp [e])) v s
  exact ⟨_, hexec, by simp, BitVec.toNat_add .., otherRegs, rfl, ⟨rfl, rfl, rfl, rfl, rfl⟩, fun _ => rfl, rfl⟩

/-- A binary ALU operation that always answers `v x y` computes what `v` is on numbers. -/
theorem computesRR_of_value {mk : RegOperand → RegOperand → Instr} {k : AluOp} {v : Byte → Byte → Byte}
    {f : Nat → Nat → Nat} (hexec : ∀ a b s, exec (mk a b) s = .next (aluBinary k a b s))
    (hvalue : ∀ x y, aluAnswer (.op k) x y = .value (v x y))
    (hv : ∀ x y, (v x y).toNat = f x.toNat y.toNat) : ComputesRR mk f := by
  intro a b s
  rw [← hv]
  exact writesResult_of_value (hexec a b s) (hvalue _ _)

/-- A unary ALU operation that always answers `v x` computes what `v` is on numbers. -/
theorem computesR_of_value {mk : RegOperand → Instr} {k : AluOp} {v : Byte → Byte}
    {f : Nat → Nat} (hexec : ∀ a s, exec (mk a) s = .next (aluUnary k a s))
    (hvalue : ∀ x y, aluAnswer (.op k) x y = .value (v x))
    (hv : ∀ x, (v x).toNat = f x.toNat) : ComputesR mk f := by
  intro a s
  rw [← hv]
  exact writesResult_of_value (hexec a s) (hvalue _ _)

/-- A binary ALU operation that answers DivideByZero for the divisor 0, and `v x y` for any other, divides
(`60_exceptions.md` R177). -/
theorem dividesOrFaults_of_answer {mk : RegOperand → RegOperand → Instr} {k : AluOp} {v : Byte → Byte → Byte}
    {f : Nat → Nat → Nat} (hexec : ∀ a b s, exec (mk a b) s = .next (aluBinary k a b s))
    (hanswer : ∀ x y, aluAnswer (.op k) x y = if y = 0#8 then .fault .divideByZero else .value (v x y))
    (hv : ∀ x y, (v x y).toNat = f x.toNat y.toNat) : DividesOrFaults mk f := by
  intro a b s
  constructor
  · intro hb
    rw [← hv]
    exact writesResult_of_value (hexec a b s) ((hanswer _ _).trans (if_neg hb))
  · intro hb
    rw [hexec]
    exact congrArg _ (useAlu_of_fault 3#8 ((hanswer _ _).trans (if_pos hb)))

/-! ### The fault of an unrecognised tag -/

/-- No effect of an instruction sets CAUSE to UnsupportedOperation (`60_exceptions.md` R178). -/
theorem Effect.cause_ne_unsupported {a b : RegIdx} {imm : Byte} {s t : State} {o : Op} (h : Effect a b imm s o t)
    (hs : s.cause ≠ some .unsupportedOperation) : t.cause ≠ some .unsupportedOperation := by
  rcases h.run_cause_cases with ⟨-, rfl⟩ | ⟨-, -, rfl⟩ | ⟨-, -, -, hcause⟩
  · exact hs
  · simp
  · rwa [hcause]

/-- No step sets CAUSE to UnsupportedOperation (`60_exceptions.md` R178). -/
theorem step_cause_ne_unsupported {s t : State} (h : step s = .next t)
    (hs : s.cause ≠ some .unsupportedOperation) : t.cause ≠ some .unsupportedOperation := by
  by_cases hrun : s.run = .running
  · rcases step_cases hrun h with ⟨-, rfl⟩ | ⟨o, -, he⟩
    · simp
    · exact he.cause_ne_unsupported hs
  · rw [step_of_not_running hrun] at h
    exact Host.Outcome.next.inj h ▸ hs

/-! ### The statements -/

/-- Settles O15: the 14 operations fault only with DivideByZero, and a step raises only that or
IllegalInstruction. -/
theorem onlyAnUnrecognisedTagIsUnsupported : Obligations.OnlyAnUnrecognisedTagIsUnsupported := by
  refine ⟨fun a b n s => useAlu_of_fault n rfl, fun k x y h => ?_,
    fun s t h => not_imp_not.mp (step_cause_ne_unsupported h)⟩
  obtain ⟨-, -, hfault⟩ := aluAnswer_eq_fault h
  cases hfault

/-- Settles O9: a binary operation writes its answer, and the byte operations are those on numbers modulo 256. -/
theorem addSubMulWrapModulo256 : Obligations.AddSubMulWrapModulo256 := by
  have sub_wraps (x y : Byte) : (x - y).toNat = (x.toNat + 256 - y.toNat) % 256 := by
    have := y.isLt
    rw [BitVec.toNat_sub]
    omega
  exact
    ⟨encodesRR_byte (o := .add) fun _ _ => rfl,
      computesRR_of_value (k := .add) (fun _ _ _ => rfl) (fun _ _ => rfl) BitVec.toNat_add,
      encodesRR_byte (o := .sub) fun _ _ => rfl,
      computesRR_of_value (k := .sub) (fun _ _ _ => rfl) (fun _ _ => rfl) sub_wraps,
      encodesRR_byte (o := .mul) fun _ _ => rfl,
      computesRR_of_value (k := .mul) (fun _ _ _ => rfl) (fun _ _ => rfl) BitVec.toNat_mul⟩

/-- Settles O10: a unary operation writes its answer; to subtract 1 is to add 255 modulo 256. -/
theorem incDecWrapModulo256 : Obligations.IncDecWrapModulo256 := by
  have dec_wraps (x : Byte) : (x - 1#8).toNat = (x.toNat + 255) % 256 := by
    rw [BitVec.toNat_sub, Nat.add_comm]
    rfl
  exact
    ⟨encodesR_byte (o := .inc) fun _ _ => rfl,
      computesR_of_value (k := .inc) (fun _ _ => rfl) (fun _ _ => rfl) fun x => BitVec.toNat_add x 1#8,
      encodesR_byte (o := .dec) fun _ _ => rfl,
      computesR_of_value (k := .dec) (fun _ _ => rfl) (fun _ _ => rfl) dec_wraps⟩

/-- Settles O11: both answer DivideByZero exactly for the divisor 0, and otherwise the byte operations are the
quotient and the remainder of the numbers. -/
theorem divModTruncateOrFault : Obligations.DivModTruncateOrFault := by
  have mod_remainder (x y : Byte) : (x % y).toNat = x.toNat - y.toNat * (x.toNat / y.toNat) := by
    rw [BitVec.toNat_umod, Nat.mod_eq_sub]
  exact
    ⟨encodesRR_byte (o := .div) fun _ _ => rfl,
      dividesOrFaults_of_answer (k := .div) (fun _ _ _ => rfl) (fun _ _ => rfl) fun _ _ => BitVec.toNat_udiv,
      encodesRR_byte (o := .mod) fun _ _ => rfl,
      dividesOrFaults_of_answer (k := .mod) (fun _ _ _ => rfl) (fun _ _ => rfl) mod_remainder⟩

end Sys2Proof.Machine

/-! PROOFS. The bitwise operations, the shifts and the comparison of the ALU (spec/41_alu_bitwise_compare.md): what
each of their answers is on numbers, and what CMP does to the state. -/

namespace Sys2Proof.Machine

/-! ### The shifts on numbers -/

theorem toNat_shiftLeft (x y : Byte) :
    (shiftLeft x y).toNat = if y.toNat ≥ 8 then 0 else x.toNat * 2 ^ y.toNat % 256 := by
  unfold shiftLeft
  split
  · rfl
  · exact BitVec.toNat_ofNat ..

/-- The quotient of a logical right shift is a byte already (`41_alu_bitwise_compare.md` R96). -/
theorem toNat_shiftRight (x y : Byte) :
    (shiftRight x y).toNat = if y.toNat ≥ 8 then 0 else x.toNat / 2 ^ y.toNat := by
  unfold shiftRight
  split
  · rfl
  · have quotient_lt : x.toNat / 2 ^ y.toNat < 2 ^ 8 := (Nat.div_le_self ..).trans_lt x.isLt
    rw [BitVec.toNat_ofNat, Nat.mod_eq_of_lt quotient_lt]

/-! ### The comparison -/

/-- CMP writes the flags and moves the pc past its three bytes (`41_alu_bitwise_compare.md` R97). -/
theorem exec_cmp (a b : RegOperand) (s : State) :
    exec (.cmp a b) s =
      .next (advance 3#8 (setFlags (compareFlags (readReg s a.index) (readReg s b.index)) s)) :=
  congrArg Host.Outcome.next (useAlu_of_flags (tag := .op .cmp) 3#8 rfl)

/-! ### The statements -/

/-- Settles O12: each answers its operation on the bytes, and to invert the eight bits is to subtract from 255. -/
theorem bitwiseOperationsActOnEightBits : Obligations.BitwiseOperationsActOnEightBits :=
  ⟨encodesRR_byte (o := .and) fun _ _ => rfl,
    computesRR_of_value (k := .and) (fun _ _ _ => rfl) (fun _ _ => rfl) BitVec.toNat_and,
    encodesRR_byte (o := .or) fun _ _ => rfl,
    computesRR_of_value (k := .or) (fun _ _ _ => rfl) (fun _ _ => rfl) BitVec.toNat_or,
    encodesRR_byte (o := .xor) fun _ _ => rfl,
    computesRR_of_value (k := .xor) (fun _ _ _ => rfl) (fun _ _ => rfl) BitVec.toNat_xor,
    encodesR_byte (o := .not) fun _ _ => rfl,
    computesR_of_value (k := .not) (fun _ _ => rfl) (fun _ _ => rfl) fun _ => BitVec.toNat_not⟩

/-- Settles O13: each answers its shift, whose value on numbers has the case of 8 and over apart. -/
theorem shiftsAreLogicalAndUnmasked : Obligations.ShiftsAreLogicalAndUnmasked :=
  ⟨encodesRR_byte (o := .shl) fun _ _ => rfl,
    computesRR_of_value (k := .shl) (fun _ _ _ => rfl) (fun _ _ => rfl) toNat_shiftLeft,
    encodesRR_byte (o := .shr) fun _ _ => rfl,
    computesRR_of_value (k := .shr) (fun _ _ _ => rfl) (fun _ _ => rfl) toNat_shiftRight⟩

/-- Settles O14: the flags CMP writes are those of `compareFlags`, and it writes only them and the pc. -/
theorem cmpWritesExactlyOneFlag : Obligations.CmpWritesExactlyOneFlag := by
  refine ⟨encodesRR_byte (o := .cmp) fun _ _ => rfl, fun a b s => ⟨_, exec_cmp a b s, ?_⟩⟩
  exact ⟨compareFlags_E_iff .., compareFlags_L_iff .., compareFlags_G_iff .., compareFlags_sum ..,
    BitVec.toNat_add .., fun _ => rfl, ⟨rfl, rfl, rfl, rfl, rfl⟩, fun _ => rfl, rfl⟩

end Sys2Proof.Machine

/-! PROOFS. The statements about the dispatch (spec/42_dispatch.md): HLT and NOP, one step and its totality, the
host's entry, and runs that are over or execute NOPs for ever. -/

namespace Sys2Proof

/-- A table word is an instruction exactly when its three bytes decode to it. -/
theorem decodeTableWord_eq_some {nbits w : Nat} {i : Instr} :
    decodeTableWord nbits w = some i ↔
      decode (tableByte nbits w 0) (tableByte nbits w 1) (tableByte nbits w 2) = .instr i := by
  unfold decodeTableWord
  split <;> simp [*]

end Sys2Proof

namespace Sys2Proof.Machine

/-! ### One instruction and one step -/

/-- The opcode byte of a format Z opcode encodes its instruction (`30_encoding.md` R57). -/
theorem encodesZ_byte {o : Op} {i : Instr} (h : ∀ A B, o.instr A B = i) : EncodesZ o.byte i :=
  fun A B => (decode_byte o A B).trans (congrArg _ (h A B))

/-- No instruction faults or is refused: each arm of `exec` answers a next state. -/
theorem exec_answers_next (i : Instr) (s : State) : ∃ t, exec i s = .next t := by
  cases i <;> exact ⟨_, rfl⟩

theorem dispatch_answers_next (s : State) : ∃ t, dispatch s = .next t := by
  cases h : decode s.ir s.opA s.opB with
  | instr i =>
    rw [dispatch_of_instr h]
    exact exec_answers_next i s
  | illegal why => exact ⟨_, dispatch_of_illegal h⟩

/-- A step at the opcode byte of NOP (`42_dispatch.md` R110). -/
theorem step_of_nop {s : State} (hs : s.run = .running) (ho : opcodeAtPc s = Op.nop.byte) :
    step s = .next (advance 1#8 (fetch s)) :=
  step_of_opcode hs ho

/-! ### The three bytes placed at the pc -/

/-- What memory holds after an instruction was placed at the pc. -/
theorem readMem_placeAtPc (ir A B : Byte) (s : State) (b : Addr) :
    readMem (placeAtPc ir A B s) b =
      if b = s.pc + 2#8 then B else if b = s.pc + 1#8 then A else if b = s.pc then ir else readMem s b := by
  have placed : readMem (placeAtPc ir A B s) b =
      readMem (writeMem (s.pc + 2#8) B (writeMem (s.pc + 1#8) A (writeMem s.pc ir s))) b := rfl
  simp only [placed, readMem_writeMem]

/-- Placing an instruction at the pc changes only its three cells. -/
theorem readMem_placeAtPc_of_ne (ir A B : Byte) (s : State) (a : Addr) (h0 : a ≠ s.pc) (h1 : a ≠ s.pc + 1#8)
    (h2 : a ≠ s.pc + 2#8) : readMem (placeAtPc ir A B s) a = readMem s a := by
  rw [readMem_placeAtPc, if_neg h2, if_neg h1, if_neg h0]

/-- The three addresses of a fetch are distinct, so that it reads back the three bytes placed there. -/
theorem decode_fetch_placeAtPc (ir A B : Byte) (s : State) :
    decode (fetch (placeAtPc ir A B s)).ir (fetch (placeAtPc ir A B s)).opA (fetch (placeAtPc ir A B s)).opB =
      decode ir A B := by
  simp [readMem_placeAtPc]

/-- The step after an instruction was placed at the pc runs it (`42_dispatch.md` R105). -/
theorem step_placeAtPc {ir A B : Byte} {i : Instr} (h : decode ir A B = .instr i) (s : State) :
    step (placeAtPc ir A B s) = exec i (fetch (placeAtPc ir A B s)) := by
  rw [step_of_running (placeAtPc_run ..)]
  exact dispatch_of_instr ((decode_fetch_placeAtPc ir A B s).trans h)

/-! ### Runs -/

/-- A run of one step more goes on from the state that its first step answers. -/
theorem run_succ_of_step {s t : State} (h : step s = .next t) (n : Nat) : core.run (n + 1) s = core.run n t := by
  have hcore : core.step s = .next t := h
  simp only [Host.Core.run, hcore]

theorem State.over.not_running {s : State} (h : s.over) : s.run ≠ .running := by
  rcases h with h | h <;> simp [h]

/-! ### The statements -/

/-- Settles O41, by induction on the number of steps: each step answers the state itself. -/
theorem finishedRunsStayPut : Obligations.FinishedRunsStayPut := by
  intro n s hover
  induction n with
  | zero => rfl
  | succ n ih => rw [run_succ_of_step (step_of_not_running hover.not_running), ih]

/-- Settles O42, by induction on the number of steps: the first is a NOP, after which memory is still zero. -/
theorem zeroedMemoryNeverStops : Obligations.ZeroedMemoryNeverStops := by
  intro n
  induction n with
  | zero =>
    intro s hs _
    exact ⟨s, rfl, hs, (Nat.mod_eq_of_lt s.pc.isLt).symm, fun _ => rfl, rfl, fun _ => rfl, rfl⟩
  | succ n ih =>
    intro s hs hzero
    have first_step : core.run (n + 1) s = core.run n (advance 1#8 (fetch s)) :=
      run_succ_of_step (step_of_nop hs (hzero s.pc)) n
    obtain ⟨t, hrest, hrun, hpc, hregs, hflags, hmem, hout⟩ := ih (advance 1#8 (fetch s)) hs hzero
    refine ⟨t, first_step.trans hrest, hrun, ?_, hregs, hflags, hmem, hout⟩
    rw [hpc, advance_pc, fetch_pc, BitVec.toNat_add, BitVec.toNat_ofNat]
    omega

/-- Settles O44: the state that `exec` runs on is the fetch of the given one with the three bytes placed,
whose other cells and fields the placing keeps. -/
theorem withFetchWordRunsTheWord : Obligations.WithFetchWordRunsTheWord := by
  intro s nbits w i h
  refine ⟨_, step_placeAtPc (decodeTableWord_eq_some.mp h) s, ?_⟩
  simpa using readMem_placeAtPc_of_ne (tableByte nbits w 0) (tableByte nbits w 1) (tableByte nbits w 2) s

/-- Settles O27: both meanings are a single update of the state. -/
theorem hltStopsAndNopMovesOn : Obligations.HltStopsAndNopMovesOn :=
  ⟨encodesZ_byte (o := .hlt) fun _ _ => rfl, fun _ => rfl, encodesZ_byte (o := .nop) fun _ _ => rfl,
    fun _ => ⟨_, rfl, BitVec.toNat_add .., fun _ => rfl, rfl, ⟨rfl, rfl, rfl, rfl, rfl⟩, fun _ => rfl, rfl⟩⟩

/-- Settles O28: the three cases of a step are its three lemmas. -/
theorem stepRunsTheDecodedInstruction : Obligations.StepRunsTheDecodedInstruction :=
  ⟨fun _ => step_of_not_running, fun s _ hs h => (step_of_running hs).trans (dispatch_of_instr (s := fetch s) h),
    fun _ => step_of_illegal⟩

/-- Settles O29: a step that dispatches answers next, and so does one that changes nothing. -/
theorem stepAlwaysAnswersNext : Obligations.StepAlwaysAnswersNext := by
  intro s
  by_cases hs : s.run = .running
  · rw [step_of_running hs]
    exact dispatch_answers_next _
  · exact ⟨s, step_of_not_running hs⟩

end Sys2Proof.Machine

/-! PROOFS. The data movement instructions (spec/43_data_movement.md): what LDI, LD and ST do to the state, and what
a loaded register and a stored cell leave unchanged. -/

namespace Sys2Proof.Machine

/-! ### The three instructions -/

/-- The opcode byte of a format RI opcode encodes its instruction (`30_encoding.md` R57, R59, R60). -/
theorem encodesRI_byte {o : Op} {mk : RegOperand → Byte → Instr}
    (h : ∀ A B, o.instr A B = mk (.ofByte A) B) : EncodesRI o.byte mk :=
  fun A B => ⟨.ofByte A, (decode_byte o A B).trans (congrArg _ (h A B)), RegOperand.ofByte_index_val A⟩

/-- LDI writes the immediate and moves the pc past its three bytes (`43_data_movement.md` R125). -/
theorem exec_ldi (a : RegOperand) (imm : Byte) (s : State) :
    exec (.ldi a imm) s = .next (advance 3#8 (writeReg a.index imm s)) := rfl

/-- LD writes the cell at the old x[b] and moves the pc past its three bytes (`43_data_movement.md` R126). -/
theorem exec_ld (a b : RegOperand) (s : State) :
    exec (.ld a b) s = .next (advance 3#8 (writeReg a.index (readMem s (readReg s b.index)) s)) := rfl

/-- ST stores x[b] at x[a] and moves the pc past its three bytes (`43_data_movement.md` R127). -/
theorem exec_st (a b : RegOperand) (s : State) :
    exec (.st a b) s = .next (advance 3#8 (writeMem (readReg s a.index) (readReg s b.index) s)) := rfl

/-! ### What a write to a register leaves unchanged -/

theorem keepsRegsBut_writeReg (i : RegIdx) (v : Byte) (s : State) : KeepsRegsBut [i] s (writeReg i v s) :=
  fun _ hr => readReg_writeReg_of_ne (List.ne_of_not_mem_cons hr) v s

/-- An instruction that writes `v` to `r` and moves the pc by `n` changes nothing else: the common part of LDI
and LD. -/
theorem loads_of_exec {i : Instr} {r : RegIdx} {v n : Byte} {s : State}
    (hexec : exec i s = .next (advance n (writeReg r v s))) :
    ∃ t, exec i s = .next t ∧ readReg t r = v ∧ t.pc.toNat = (s.pc.toNat + n.toNat) % 256 ∧
      KeepsRegsBut [r] s t ∧ KeepsFlags s t ∧ KeepsControl s t ∧ KeepsMem s t ∧ KeepsOut s t :=
  ⟨_, hexec, readReg_writeReg_same r v s, BitVec.toNat_add .., keepsRegsBut_writeReg r v s, rfl,
    ⟨rfl, rfl, rfl, rfl, rfl⟩, fun _ => rfl, rfl⟩

/-! ### The statements -/

/-- Settles O16: both write one register and move the pc, and LD reads its cell in the state before the write. -/
theorem loadsWriteTheirRegister : Obligations.LoadsWriteTheirRegister :=
  ⟨encodesRI_byte (o := .ldi) fun _ _ => rfl, fun a imm s => loads_of_exec (exec_ldi a imm s),
    encodesRR_byte (o := .ld) fun _ _ => rfl, fun a b s => loads_of_exec (exec_ld a b s)⟩

/-- Settles O17: ST is one write to memory, which changes the cell at its address and no other. -/
theorem storeWritesOneCell : Obligations.StoreWritesOneCell := by
  refine ⟨encodesRR_byte (o := .st) fun _ _ => rfl, fun a b s => ⟨_, exec_st a b s, ?_⟩⟩
  have otherCells : KeepsMemBut (readReg s a.index) s
      (advance 3#8 (writeMem (readReg s a.index) (readReg s b.index) s)) :=
    fun _ hw => readMem_writeMem_of_ne hw (readReg s b.index) s
  exact ⟨readMem_writeMem_same .., otherCells, BitVec.toNat_add .., fun _ => rfl, rfl,
    ⟨rfl, rfl, rfl, rfl, rfl⟩, rfl⟩

end Sys2Proof.Machine

/-! PROOFS. The output instructions and the output port (spec/44_output.md): what PRN and PRA do to the state, what a
step does with any output stream in its place, and the text of an event. -/

namespace Sys2Proof.Machine

/-! ### The two instructions -/

/-- PRN appends x[a] to the output and moves the pc past its two bytes (`44_output.md` R136). -/
theorem exec_prn (a : RegOperand) (s : State) :
    exec (.prn a) s = .next (advance 2#8 (emit .prn (readReg s a.index) s)) := rfl

/-- PRA appends x[a] to the output and moves the pc past its two bytes (`44_output.md` R137). -/
theorem exec_pra (a : RegOperand) (s : State) :
    exec (.pra a) s = .next (advance 2#8 (emit .pra (readReg s a.index) s)) := rfl

/-- An instruction that emits x[a] and moves the pc past two bytes changes nothing else. -/
theorem emits_of_exec {mk : RegOperand → Instr} {kind : OutKind}
    (hexec : ∀ a s, exec (mk a) s = .next (advance 2#8 (emit kind (readReg s a.index) s))) : Emits mk kind :=
  fun a s => ⟨_, hexec a s, rfl, BitVec.toNat_add .., fun _ => rfl, rfl, ⟨rfl, rfl, rfl, rfl, rfl⟩, fun _ => rfl⟩

/-! ### Another output stream in the place of the state's own -/

/-- The state with the output stream `out` instead of its own. -/
def State.withOut (s : State) (out : List OutEvent) : State :=
  { s with out := out }

/-- The ALU neither reads nor writes the output stream. -/
theorem useAlu_withOut (tag : AluTag) (a b : RegOperand) (n : Byte) (s : State) (out : List OutEvent) :
    useAlu tag a b n (s.withOut out) = (useAlu tag a b n s).withOut out := by
  have same_operands : aluAnswer tag (readReg (s.withOut out) a.index) (readReg (s.withOut out) b.index) =
      aluAnswer tag (readReg s a.index) (readReg s b.index) := rfl
  cases hans : aluAnswer tag (readReg s a.index) (readReg s b.index) with
  | value v => rw [useAlu_of_value n hans, useAlu_of_value n (same_operands.trans hans)]; rfl
  | flags f => rw [useAlu_of_flags n hans, useAlu_of_flags n (same_operands.trans hans)]; rfl
  | fault f => rw [useAlu_of_fault n hans, useAlu_of_fault n (same_operands.trans hans)]; rfl

/-- A conditional jump neither reads nor writes the output stream. -/
theorem jumpIf_withOut (c : Bool) (a : RegOperand) (s : State) (out : List OutEvent) :
    jumpIf c a (s.withOut out) = (jumpIf c a s).withOut out := by
  cases c <;> rfl

/-- An instruction other than PRN and PRA neither reads nor writes the output stream (`44_output.md` R135). -/
theorem exec_withOut_of_silent {o : Op} {A B : Byte} {s t : State} (hprn : o ≠ .prn) (hpra : o ≠ .pra)
    (h : exec (o.instr A B) s = .next t) (out : List OutEvent) :
    exec (o.instr A B) (s.withOut out) = .next (t.withOut out) := by
  cases o
  case prn => exact absurd rfl hprn
  case pra => exact absurd rfl hpra
  all_goals cases h
  case add | sub | mul | div | mod | inc | dec | and | or | xor | not | shl | shr | cmp =>
    exact congrArg Host.Outcome.next (useAlu_withOut ..)
  case jeq | jne | jgt | jlt | jle | jge => exact congrArg Host.Outcome.next (jumpIf_withOut ..)
  all_goals rfl

/-- The events that an instruction with the opcode byte `op` and the value `v` of x[a] emits: one in PRN and in PRA,
none in any other (`44_output.md` R135, R136, R137). -/
def emitted (op v : Byte) : List OutEvent :=
  if op = 0x47#8 then [{ kind := .prn, value := v }]
  else if op = 0x48#8 then [{ kind := .pra, value := v }]
  else []

theorem emitted_of_silent {op : Byte} (hprn : op ≠ 0x47#8) (hpra : op ≠ 0x48#8) (v : Byte) : emitted op v = [] := by
  rw [emitted, if_neg hprn, if_neg hpra]

/-- An instruction does the same with any output stream in place of the state's, and appends its events to it. -/
theorem exec_withOut {o : Op} {A B : Byte} {s t : State} (h : exec (o.instr A B) s = .next t)
    (out : List OutEvent) :
    exec (o.instr A B) (s.withOut out) =
      .next (t.withOut (out ++ emitted o.byte (readReg s (RegOperand.ofByte A).index))) := by
  by_cases hprn : o = .prn
  · subst hprn; cases h; rfl
  by_cases hpra : o = .pra
  · subst hpra; cases h; rfl
  have silent := emitted_of_silent (Op.byte_injective.ne hprn) (Op.byte_injective.ne hpra)
  rw [silent, List.append_nil]
  exact exec_withOut_of_silent hprn hpra h out

/-- A step in RUNNING does the same with any output stream in place of the state's, and appends to it the events of
the instruction at the pc. -/
theorem step_withOut {s t : State} (hs : s.run = .running) (h : step s = .next t) (out : List OutEvent) :
    step (s.withOut out) = .next (t.withOut (out ++ emitted (opcodeAtPc s) (readReg s (indexA s)))) := by
  by_cases hop : opcodeAtPc s ∈ definedOpcodeBytes
  · obtain ⟨o, ho⟩ := mem_definedOpcodeBytes.mp hop
    have hexec := exec_withOut ((step_of_opcode hs ho).symm.trans h) out
    rw [ofByte_index, ← ho] at hexec
    exact (step_of_opcode (s := s.withOut out) hs ho).trans hexec
  · have hprn : opcodeAtPc s ≠ 0x47#8 := fun e => hop (e ▸ by decide)
    have hpra : opcodeAtPc s ≠ 0x48#8 := fun e => hop (e ▸ by decide)
    rw [step_of_illegal hs hop] at h
    obtain rfl := Host.Outcome.next.inj h
    rw [emitted_of_silent hprn hpra, List.append_nil]
    exact step_of_illegal (s := s.withOut out) hs hop

/-! ### The decimal numeral of PRN -/

/-- `digits` is the decimal numeral of `n` of 1 to 3 digits, the first not 0 but for the numeral of 0
(`44_output.md` R138). -/
def IsNumeral (digits : List Nat) (n : Nat) : Prop :=
  digits.foldl (fun n d => 10 * n + d) 0 = n ∧ (∀ d ∈ digits, d < 10) ∧
    1 ≤ digits.length ∧ digits.length ≤ 3 ∧ (digits.head? = some 0 → digits = [0])

/-- `decimalDigits` gives the numeral of a number below 1000, a digit `d` as the code point 48 + `d`. -/
theorem decimalDigits_eq_map_numeral {n : Nat} (hn : n < 1000) :
    ∃ digits, decimalDigits n = digits.map (48 + ·) ∧ IsNumeral digits n := by
  unfold decimalDigits
  split_ifs with h10 h100
  · exact ⟨[n], rfl, by simp [IsNumeral, h10]⟩
  · have value : 10 * (n / 10) + n % 10 = n := Nat.div_add_mod n 10
    have first : n / 10 < 10 ∧ n / 10 ≠ 0 := by omega
    exact ⟨[n / 10, n % 10], rfl, by simp [IsNumeral, value, first, Nat.mod_lt]⟩
  · have value : 10 * (10 * (n / 100) + n / 10 % 10) + n % 10 = n := by omega
    have first : n / 100 < 10 ∧ n / 100 ≠ 0 := by omega
    exact ⟨[n / 100, n / 10 % 10, n % 10], rfl, by simp [IsNumeral, value, first, Nat.mod_lt]⟩

/-! ### The statements -/

/-- Settles O36: the step on any stream is one lemma, and the stream that the state itself holds is a case of it. -/
theorem outputIsAppendedAndNeverRead : Obligations.OutputIsAppendedAndNeverRead := by
  intro s t hs h
  have own_stream : t = t.withOut (s.out ++ emitted (opcodeAtPc s) (readReg s (indexA s))) :=
    Host.Outcome.next.inj (h.symm.trans (step_withOut hs h s.out))
  exact ⟨emitted (opcodeAtPc s) (readReg s (indexA s)), congrArg State.out own_stream,
    fun hprn => by rw [hprn]; rfl, fun hpra => by rw [hpra]; rfl,
    fun hprn hpra => emitted_of_silent hprn hpra _, step_withOut hs h⟩

/-- Settles O18: each is one emission of x[a] and a move of the pc. -/
theorem printsAppendOneEvent : Obligations.PrintsAppendOneEvent :=
  ⟨encodesR_byte (o := .prn) fun _ _ => rfl, emits_of_exec exec_prn,
    encodesR_byte (o := .pra) fun _ _ => rfl, emits_of_exec exec_pra⟩

/-- Settles O46: a byte is below 1000, so that PRN's text is its numeral and the newline. -/
theorem eventTextIsAsRecorded : Obligations.EventTextIsAsRecorded := by
  intro v
  obtain ⟨digits, htext, hvalue, hdigit, hmin, hmax, hzero⟩ :=
    decimalDigits_eq_map_numeral (n := v.toNat) (by omega)
  exact ⟨digits, congrArg (· ++ [10]) htext, hvalue, hdigit, hmin, hmax, hzero, rfl⟩

end Sys2Proof.Machine

/-! PROOFS. The stack instructions (spec/45_stack.md): what PUSH and POP leave in the registers and in memory, and
the round trip of a push and a pop. -/

namespace Sys2Proof.Machine

/-! ### The two instructions -/

/-- PUSH has its effects and moves the pc past its two bytes (`45_stack.md` R146). -/
theorem exec_push (a : RegOperand) (s : State) : exec (.push a) s = .next (advance 2#8 (pushOperand a s)) := rfl

/-- POP has its effects and moves the pc past its two bytes (`45_stack.md` R148). -/
theorem exec_pop (a : RegOperand) (s : State) : exec (.pop a) s = .next (advance 2#8 (popOperand a s)) := rfl

/-! ### What PUSH does -/

theorem toNat_sub_one (x : Byte) : (x - 1#8).toNat = (x.toNat + 255) % 256 := by
  rw [BitVec.toNat_sub, Nat.add_comm]
  rfl

theorem readReg_pushOperand_sp (a : RegOperand) (s : State) : readReg (pushOperand a s) 7 = readReg s 7 - 1#8 := by
  rw [pushOperand_eq, readReg_writeMem, readReg_writeReg_same]

/-- The pushed byte is the operand register as it is after SP was decremented (`45_stack.md` R147). -/
theorem readMem_pushOperand_top (a : RegOperand) (s : State) :
    readMem (pushOperand a s) (readReg s 7 - 1#8) =
      if a.index = 7 then readReg s 7 - 1#8 else readReg s a.index := by
  rw [pushOperand_eq, readMem_writeMem_same]

theorem keepsMemBut_pushOperand (a : RegOperand) (s : State) : KeepsMemBut (pushAddr s) s (pushOperand a s) := by
  intro w hw
  rw [pushAddr_eq] at hw
  rw [pushOperand_eq, readMem_writeMem_of_ne hw, readMem_writeReg]

theorem keepsRegsBut_pushOperand (a : RegOperand) (s : State) : KeepsRegsBut [7] s (pushOperand a s) :=
  keepsRegsBut_writeReg 7 (readReg s 7 - 1#8) s

/-! ### What POP does -/

/-- A pop increments SP as it stands after the operand register was loaded (`45_stack.md` R147). -/
theorem readReg_popOperand_sp (a : RegOperand) (s : State) :
    readReg (popOperand a s) 7 = (if a.index = 7 then readMem s (readReg s 7) else readReg s 7) + 1#8 := by
  rw [popOperand_eq, readReg_writeReg_same]

theorem readReg_popOperand_of_ne {a : RegOperand} (ha : a.index ≠ 7) (s : State) :
    readReg (popOperand a s) a.index = readMem s (readReg s 7) := by
  rw [popOperand_eq, readReg_writeReg_of_ne ha, readReg_writeReg_same]

theorem keepsRegsBut_popOperand (a : RegOperand) (s : State) : KeepsRegsBut [a.index, 7] s (popOperand a s) := by
  intro r hr
  obtain ⟨hne, hne7⟩ : r ≠ a.index ∧ r ≠ 7 := by simpa using hr
  rw [popOperand_eq, readReg_writeReg_of_ne hne7, readReg_writeReg_of_ne hne]

/-! ### The statements -/

/-- Settles O21: the top of the stack in `m` is what the PUSH wrote, and the SP that the POP increments is the
decremented one, for R7 because the PUSH wrote it there. -/
theorem pushThenPopRoundTrips : Obligations.PushThenPopRoundTrips := by
  refine fun a s => ⟨_, exec_push a s, fun m hsp htop => ?_⟩
  rw [readReg_advance, readReg_pushOperand_sp] at hsp
  rw [readReg_advance, readReg_pushOperand_sp, readMem_advance, readMem_pushOperand_top] at htop
  have sp_restored (c : RegOperand) (hc : c.index = 7 → a.index = 7) : readReg (popOperand c m) 7 = readReg s 7 := by
    have incremented : (if c.index = 7 then readMem m (readReg m 7) else readReg m 7) = readReg s 7 - 1#8 := by
      split
      case isTrue hc7 => rw [hsp, htop, if_pos (hc hc7)]
      case isFalse => exact hsp
    rw [readReg_popOperand_sp, incremented, BitVec.sub_add_cancel]
  have copied (c : RegOperand) (hc : c.index ≠ 7) (ha : a.index ≠ 7) :
      readReg (popOperand c m) c.index = readReg s a.index := by
    rw [readReg_popOperand_of_ne hc, hsp, htop, if_neg ha]
  refine ⟨⟨_, exec_pop a m, ?restored, sp_restored a id⟩,
    fun c hc ha => ⟨_, exec_pop c m, copied c hc ha, sp_restored c fun hc7 => absurd hc7 hc, ?cellKept⟩⟩
  case restored =>
    by_cases ha : a.index = 7
    · rw [ha]
      exact sp_restored a id
    · exact copied a ha ha
  case cellKept => exact htop.trans (if_neg ha)

/-- Settles O19: a PUSH writes SP and the one cell at the new SP, and moves the pc. -/
theorem pushDecrementsThenStores : Obligations.PushDecrementsThenStores := by
  refine ⟨encodesR_byte (o := .push) fun _ _ => rfl, fun a s => ⟨_, exec_push a s, ?_⟩⟩
  have newSp : readReg (advance 2#8 (pushOperand a s)) 7 = readReg s 7 - 1#8 := readReg_pushOperand_sp a s
  rw [newSp]
  exact ⟨toNat_sub_one _, readMem_pushOperand_top a s, keepsMemBut_pushOperand a s, pushAddr_eq s,
    BitVec.toNat_add .., keepsRegsBut_pushOperand a s, rfl, ⟨rfl, rfl, rfl, rfl, rfl⟩, rfl⟩

/-- Settles O20: a POP writes the operand register and SP, and moves the pc; the case of R7 is in the new SP. -/
theorem popLoadsThenIncrements : Obligations.PopLoadsThenIncrements := by
  refine ⟨encodesR_byte (o := .pop) fun _ _ => rfl, fun a s => ⟨_, exec_pop a s, ?_⟩⟩
  have newSp : readReg (advance 2#8 (popOperand a s)) 7 =
      (if a.index = 7 then readMem s (readReg s 7) else readReg s 7) + 1#8 := readReg_popOperand_sp a s
  rw [newSp]
  refine ⟨fun ha => ⟨readReg_popOperand_of_ne ha s, ?spOfOther⟩, fun ha => ?spOfR7, BitVec.toNat_add ..,
    keepsRegsBut_popOperand a s, rfl, ⟨rfl, rfl, rfl, rfl, rfl⟩, fun _ => rfl, rfl⟩
  case spOfOther => rw [if_neg ha]; exact BitVec.toNat_add ..
  case spOfR7 => rw [if_pos ha]; exact BitVec.toNat_add ..

end Sys2Proof.Machine

/-! PROOFS. The control transfers (spec/46_control_flow.md): what CALL leaves for RET, the jumps, and the jump to its
own address. -/

namespace Sys2Proof.Machine

/-! ### CALL and RET -/

/-- CALL pushes its return address, then jumps to its operand register as the push left it
(`46_control_flow.md` R156, R157). -/
theorem exec_call_pushReturn (a : RegOperand) (s : State) :
    exec (.call a) s =
      .next (setPc (if a.index = 7 then readReg s 7 - 1#8 else readReg s a.index) (pushReturn s)) := by
  rw [exec_call, pushReturn_eq]

theorem readReg_pushReturn_sp (s : State) : readReg (pushReturn s) 7 = readReg s 7 - 1#8 := by
  rw [pushReturn_eq, readReg_writeMem, readReg_writeReg_same]

theorem readMem_pushReturn_top (s : State) : readMem (pushReturn s) (readReg s 7 - 1#8) = s.pc + 2#8 := by
  rw [pushReturn_eq, readMem_writeMem_same]

theorem keepsMemBut_pushReturn (s : State) : KeepsMemBut (pushAddr s) s (pushReturn s) := by
  intro w hw
  rw [pushAddr_eq] at hw
  rw [pushReturn_eq, readMem_writeMem_of_ne hw, readMem_writeReg]

theorem keepsRegsBut_pushReturn (s : State) : KeepsRegsBut [7] s (pushReturn s) :=
  keepsRegsBut_writeReg 7 (readReg s 7 - 1#8) s

/-- RET takes the pc from the cell at SP and increments SP (`46_control_flow.md` R158). -/
theorem exec_ret (s : State) :
    exec .ret s = .next (writeReg 7 (readReg s 7 + 1#8) (setPc (readMem s (readReg s 7)) s)) := rfl

/-! ### Jumps -/

/-- JMP moves the pc to x[a] (`46_control_flow.md` R159). -/
theorem exec_jmp (a : RegOperand) (s : State) : exec (.jmp a) s = .next (setPc (readReg s a.index) s) := rfl

/-- An instruction that is a `jumpIf` of the test `c` jumps when the condition that `c` decides holds
(`46_control_flow.md` R166). -/
theorem jumpsWhen_of_exec {mk : RegOperand → Instr} {c : Flags → Bool} {cond : Flags → Prop}
    (hexec : ∀ a s, exec (mk a) s = .next (jumpIf (c s.flags) a s)) (hc : ∀ f, c f = true ↔ cond f) :
    JumpsWhen mk cond := by
  intro a s
  rw [hexec, ← hc]
  cases c s.flags with
  | true =>
    exact ⟨_, rfl, fun _ => rfl, fun notTaken => absurd rfl notTaken, fun _ => rfl, rfl,
      ⟨rfl, rfl, rfl, rfl, rfl⟩, fun _ => rfl, rfl⟩
  | false =>
    exact ⟨_, rfl, fun taken => absurd taken Bool.false_ne_true, fun _ => BitVec.toNat_add .., fun _ => rfl, rfl,
      ⟨rfl, rfl, rfl, rfl, rfl⟩, fun _ => rfl, rfl⟩

/-- A step at the opcode byte of JMP (`46_control_flow.md` R159). -/
theorem step_of_jmp {s : State} (hs : s.run = .running) (ho : opcodeAtPc s = Op.jmp.byte) :
    step s = .next (setPc (readReg s (indexA s)) (fetch s)) := by
  rw [step_of_opcode hs ho, Op.instr, exec_jmp, ofByte_index, readReg_fetch, indexA]

/-- A step at a JMP to its own address is the fetch and nothing else (`46_control_flow.md` R159). -/
theorem step_of_jmp_self {s : State} (hs : s.run = .running) (ho : opcodeAtPc s = Op.jmp.byte)
    (htarget : readReg s (indexA s) = s.pc) : step s = .next (fetch s) := by
  rw [step_of_jmp hs ho, htarget]
  rfl

/-! ### The statements -/

/-- Settles O24: the top of the stack in `m` is the return address that the CALL pushed, and the SP that the RET
increments is the decremented one. -/
theorem callThenRetReturns : Obligations.CallThenRetReturns := by
  refine fun a s => ⟨_, exec_call_pushReturn a s, fun m hsp htop => ?_⟩
  rw [readReg_setPc, readReg_pushReturn_sp] at hsp
  rw [readReg_setPc, readReg_pushReturn_sp, readMem_setPc, readMem_pushReturn_top] at htop
  refine ⟨_, exec_ret m, ?returned, ?spRestored⟩
  case returned =>
    rw [writeReg_pc, setPc_pc, hsp, htop]
    exact BitVec.toNat_add ..
  case spRestored => rw [readReg_writeReg_same, hsp, BitVec.sub_add_cancel]

/-- Settles O43, by induction on the number of steps: the first is only a fetch, after which the same JMP stands at
the pc. -/
theorem jumpToItselfHangs : Obligations.JumpToItselfHangs := by
  intro n
  induction n with
  | zero => exact fun s hs _ _ => ⟨s, rfl, hs, rfl, fun _ => rfl, rfl, fun _ => rfl, rfl⟩
  | succ n ih =>
    intro s hs ho htarget
    rw [run_succ_of_step (step_of_jmp_self hs ho htarget)]
    exact ih (fetch s) hs ho htarget

/-- Settles O22: a CALL writes SP and the one cell at the new SP, and its target is read after the push. -/
theorem callPushesReturnAddress : Obligations.CallPushesReturnAddress := by
  refine ⟨encodesR_byte (o := .call) fun _ _ => rfl, fun a s => ⟨_, exec_call_pushReturn a s, ?_⟩⟩
  rw [readReg_setPc, readReg_pushReturn_sp, readMem_setPc, readMem_pushReturn_top]
  exact ⟨toNat_sub_one _, BitVec.toNat_add .., keepsMemBut_pushReturn s, pushAddr_eq s, rfl,
    keepsRegsBut_pushReturn s, rfl, ⟨rfl, rfl, rfl, rfl, rfl⟩, rfl⟩

/-- Settles O23: a RET moves the pc to the byte at the top and writes SP. -/
theorem retPopsIntoPc : Obligations.RetPopsIntoPc := by
  refine ⟨encodesZ_byte (o := .ret) fun _ _ => rfl, fun s => ⟨_, exec_ret s, rfl, ?newSp,
    keepsRegsBut_writeReg 7 (readReg s 7 + 1#8) s, rfl, ⟨rfl, rfl, rfl, rfl, rfl⟩, fun _ => rfl, rfl⟩⟩
  case newSp => rw [readReg_writeReg_same]; exact BitVec.toNat_add ..

/-- Settles O25: JMP is a single write of the pc. -/
theorem jmpGoesToRegister : Obligations.JmpGoesToRegister :=
  ⟨encodesR_byte (o := .jmp) fun _ _ => rfl, fun a s => ⟨_, exec_jmp a s, rfl, fun _ => rfl, rfl,
    ⟨rfl, rfl, rfl, rfl, rfl⟩, fun _ => rfl, rfl⟩⟩

/-- Settles O26: each is a `jumpIf` of a test that decides its condition. -/
theorem conditionalJumpsTestTheirFlags : Obligations.ConditionalJumpsTestTheirFlags :=
  ⟨encodesR_byte (o := .jeq) fun _ _ => rfl, jumpsWhen_of_exec (c := condEq) (fun _ _ => rfl) fun _ => Iff.rfl,
    encodesR_byte (o := .jne) fun _ _ => rfl,
    jumpsWhen_of_exec (c := condNe) (fun _ _ => rfl) fun _ => iff_of_eq (Bool.not_eq_true' _),
    encodesR_byte (o := .jgt) fun _ _ => rfl, jumpsWhen_of_exec (c := condGt) (fun _ _ => rfl) fun _ => Iff.rfl,
    encodesR_byte (o := .jlt) fun _ _ => rfl, jumpsWhen_of_exec (c := condLt) (fun _ _ => rfl) fun _ => Iff.rfl,
    encodesR_byte (o := .jge) fun _ _ => rfl,
    jumpsWhen_of_exec (c := condGe) (fun _ _ => rfl) fun _ => Bool.or_eq_true_iff,
    encodesR_byte (o := .jle) fun _ _ => rfl,
    jumpsWhen_of_exec (c := condLe) (fun _ _ => rfl) fun _ => Bool.or_eq_true_iff⟩

end Sys2Proof.Machine

/-! PROOFS. What a faulting step writes (spec/60_exceptions.md R183 to R185). -/

namespace Sys2Proof.Machine

/-- A step that ends in FAULTED is the fetch and one raised fault (`60_exceptions.md` R183). -/
theorem step_eq_raiseFault_fetch {s t : State} (hs : s.run = .running) (h : step s = .next t)
    (ht : t.run = .faulted) : ∃ f : FaultKind, t = raiseFault f (fetch s) := by
  rcases step_cases hs h with ⟨-, hillegal⟩ | ⟨o, -, he⟩
  · exact ⟨.illegalInstruction, hillegal⟩
  · rcases he.run_cause_cases with ⟨-, rfl⟩ | ⟨-, -, hzero⟩ | ⟨-, -, hrun, -⟩
    · cases ht
    · exact ⟨.divideByZero, hzero⟩
    · rw [hrun, fetch_run, hs] at ht
      cases ht

/-- Settles O31: a faulting step is `raiseFault` after `fetch`, and the two write RUN, CAUSE and the latches only. -/
theorem faultsArePrecise : Obligations.FaultsArePrecise := by
  intro s t hs h ht
  obtain ⟨f, rfl⟩ := step_eq_raiseFault_fetch hs h ht
  exact ⟨Option.some_ne_none f, rfl⟩

end Sys2Proof.Machine

/-! PROOFS. The reset input and the launch (spec/70_reset_and_hazards.md R200 to R207). -/

namespace Sys2Proof.Machine

/-! ### The reset input -/

@[simp] theorem readReg_applyReset (s : State) (r : RegIdx) : readReg (applyReset s) r = readReg State.reset r := rfl

/-- SP after reset (`70_reset_and_hazards.md` R200). -/
theorem readReg_reset_sp : readReg State.reset 7 = 0xF4#8 := rfl

/-- R0 to R6 after reset (`70_reset_and_hazards.md` R201). -/
theorem readReg_reset_of_ne_sp : ∀ r : RegIdx, r ≠ 7 → readReg State.reset r = 0x00#8 := by decide

/-- Canonical memory is the only part of the invariant that the reset input does not establish itself: it sets RUN =
RUNNING with no CAUSE and clears the flags (`70_reset_and_hazards.md` R203 to R205). -/
theorem inv_applyReset {s : State} (hmem : Memory.wf s.mem = true) : (applyReset s).Inv where
  memory := hmem
  cause_iff_faulted := by simp [State.reset]
  cause_supported := (Option.some_ne_none _).symm
  flags := ⟨.inl rfl, .inl rfl, .inl rfl⟩

/-! ### The launch -/

/-- A launch is the reset input over INIT_MEM with nothing output (`70_reset_and_hazards.md` R207). -/
theorem launch_eq_applyReset (initMem : Vector Byte 256) :
    launch initMem = applyReset { State.reset with mem := Memory.ofImage initMem } := rfl

/-- Each cell of the launched machine reads INIT_MEM's byte (`70_reset_and_hazards.md` R207). -/
theorem readMem_launch (initMem : Vector Byte 256) (i : Fin 256) :
    readMem (launch initMem) (BitVec.ofNat 8 i.val) = initMem[i.val] := by
  have haddr : (BitVec.ofNat 8 i.val).toNat = i.val :=
    (BitVec.toNat_ofNat ..).trans (Nat.mod_eq_of_lt i.isLt)
  rw [readMem, haddr]
  exact Memory.read_ofImage initMem i

/-! ### The statements -/

/-- Settles O2, by the two laws of the memory of an image: what it reads as and its canonical form. -/
theorem launchHoldsInitMem : Obligations.LaunchHoldsInitMem := fun initMem =>
  ⟨readMem_launch initMem, Memory.wf_ofImage initMem, rfl, rfl⟩

/-- Settles O1: the registers by the two laws of the reset values, the other fields by the definition of the reset
input. -/
theorem resetInputSetsRegistersAndKeepsMemory : Obligations.ResetInputSetsRegistersAndKeepsMemory := by
  refine fun s => ⟨?sp, ?others, rfl, rfl, rfl, rfl, rfl, rfl, readMem_applyReset s, applyReset_out s⟩
  case sp => rw [readReg_applyReset, readReg_reset_sp]
  case others =>
    intro r hr
    rw [readReg_applyReset, readReg_reset_of_ne_sp r hr]

/-- Settles O40: the reset state and every launch are the reset input applied over a canonical memory. -/
theorem resetAndLaunchHaveTheInvariant : Obligations.ResetAndLaunchHaveTheInvariant := by
  refine ⟨?reset, ?launch, fun s hmem => inv_applyReset hmem⟩
  case reset => exact inv_applyReset (s := State.reset) rfl
  case launch =>
    intro initMem
    rw [launch_eq_applyReset]
    exact inv_applyReset (Memory.wf_ofImage initMem)

end Sys2Proof.Machine
